-- ==== Sys2Proof/Word.lean ====
section
/-! DEFINITION. The widths of the block's lanes and of its command descriptor (00_scope.md R7, 10_state.md R35). -/

namespace Sys2Proof

/-- A UTF-8 byte, or one byte of a hash: an 8-bit lane (R35). -/
abbrev Byte := BitVec 8

/-- A UTF-16 code unit: a 16-bit lane (R17, R35). -/
abbrev CodeUnit := BitVec 16

/-- A code point in its lane: 32 bits read as a two's-complement integer (R35). -/
abbrev CodePoint := BitVec 32

/-- The model's container for one element of a port sequence. The lane width of a sequence is set by the
operation (R35); the container has the width of the widest lane, and the lane is its low bits
(notes/assumptions/4.md). -/
abbrev Lane := BitVec 32

/-- A command descriptor `CMD`: one 16-bit word (R90). -/
abbrev Descriptor := BitVec 16

end Sys2Proof
end

