-- ==== Sys2Proof/Config.lean ====
section
/-! DEFINITION. The parameters the block is built with (00_scope.md R7) and the values the spec leaves open. -/

namespace Sys2Proof

/-- `KEY_LEN`: "the key table has 54 entries" (R7). -/
abbrev keyLen : Nat := 54

/-- `KEY_TABLE`: 54 ASCII codes. An entry is a 7-bit code that is zero-extended to a byte when it is read
(R9, R31), so every table of this type is a legal value of the parameter and no other is. -/
abbrev KeyTable := Vector (BitVec 7) keyLen

/-- The three legal settings of `FOUR_BYTE_MIN` (R7, R143). -/
inductive FourByteMin where
  /-- 0x80, the default: the gap of the 4-byte check preserved. -/
  | x80
  /-- 0x800: the gap preserved, with the 3-byte bound applied to longer sequences. -/
  | x800
  /-- 0x10000: the gap closed. -/
  | x10000
deriving DecidableEq, Repr

/-- The built-in parameters of one block (R7). They are fixed when the block is built; no operation and no
request writes them (R8, R40, R244). -/
structure Params where
  /-- `KEY_TABLE` (R7, R8, R31). -/
  keyTable : KeyTable
  /-- `FOUR_BYTE_MIN` (R7, R143). -/
  fourByteMin : FourByteMin
  /-- `MAX_IN_LEN`: a natural number, or `none` for unbounded (R7, R73). -/
  maxInLen : Option Nat
deriving DecidableEq, Repr

/-- The key table of the block that `State.reset` describes. OPEN in the spec (R7, D12): a free value with no
body (notes/assumptions/2.md). -/
opaque Config.keyTable : KeyTable

/-- The input capacity of the block that `State.reset` describes. OPEN in the spec (R7, D16): a free value with
no body (notes/assumptions/3.md). -/
opaque Config.maxInLen : Option Nat

/-- The `FOUR_BYTE_MIN` of the block that `State.reset` describes: the default the spec states (R7, R143). -/
def Config.fourByteMin : FourByteMin := .x80

/-- What the 32-bit `value` field of an error record holds when the rule gives it a natural number of 2³¹ or
more, which a two's-complement 32-bit field cannot hold (R213). The spec states no result there: a free value of
the error's code and the number (notes/assumptions/5.md). -/
opaque Config.wideValue : Byte → Nat → BitVec 32

/-- The parameters of the block that `State.reset` describes. -/
def Config.params : Params :=
  { keyTable := Config.keyTable, fourByteMin := Config.fourByteMin, maxInLen := Config.maxInLen }

end Sys2Proof
end

