-- ==== Sys2Proof/Syntax.lean ====
section
/-! DEFINITION. The seven operations (00_scope.md R3, 30_encoding.md R91): one constructor per row of the opcode
table. -/

namespace Sys2Proof

/-- An operation with the offset operand its descriptor carries. -/
inductive Instr where
  /-- DEC16: decode UTF-16 units to code points (R124). -/
  | dec16
  /-- ENC16: encode code points to UTF-16 units (R126). -/
  | enc16
  /-- DEC8: decode UTF-8 bytes to code points (R146). -/
  | dec8
  /-- ENC8: encode code points to UTF-8 bytes (R150). -/
  | enc8
  /-- T7DEC: decode type-7 text to plaintext (R180). -/
  | t7dec
  /-- T7ENC: encode plaintext to type-7 text with the offset `o` (R184). -/
  | t7enc (o : Nat)
  /-- KSX: the keystream transform with the offset `o` (R172). -/
  | ksx (o : Nat)
deriving DecidableEq, Repr

end Sys2Proof
end

