-- ==== Sys2Proof/WellFormed.lean ====
section
/-! DEFINITION. Which operations a descriptor can name: the offset operand is a 7-bit field (30_encoding.md R92). -/

namespace Sys2Proof

/-- The offset operand is "an unsigned integer in [0, 127]" (R92). -/
def offsetOk (o : Nat) : Bool := decide (o ≤ 127)

/-- An instruction some descriptor encodes: only T7ENC and KSX carry an operand (R91), and it fits its field. -/
def WellFormed : Instr → Bool
  | .dec16 => true
  | .enc16 => true
  | .dec8 => true
  | .enc8 => true
  | .t7dec => true
  | .t7enc o => offsetOk o
  | .ksx o => offsetOk o

end Sys2Proof
end

