-- ==== Sys2Proof/Decode.lean ====
section
/-! DEFINITION. The command descriptor (30_encoding.md R90 to R97): its decoder and its encoder. -/

namespace Sys2Proof

/-- `RSV`, bits 15:11 (R90). -/
def rsvField (c : Descriptor) : BitVec 5 := c.extractLsb' 11 5

/-- `OFFSET`, bits 10:4 (R90, R92). -/
def offsetField (c : Descriptor) : BitVec 7 := c.extractLsb' 4 7

/-- `OP`, bits 3:0 (R90). -/
def opField (c : Descriptor) : BitVec 4 := c.extractLsb' 0 4

/-- Why a descriptor names no operation. Each makes the request fail with `E_ILLEGAL_OP` (R93). -/
inductive DecodeError where
  /-- `RSV` is not zero (R94). -/
  | reservedBits
  /-- `OP` is 0x0 or 0x8 to 0xF (R95). -/
  | reservedOp
  /-- `OFFSET` is not zero on an operation that has no offset (R96). -/
  | offsetNotZero
deriving DecidableEq, Repr

/-- The third check of R93: an operation without an offset has a zero `OFFSET` field (R96). -/
def decodeNoOffset (c : Descriptor) (i : Instr) : Except DecodeError Instr :=
  if offsetField c = 0 then .ok i else .error .offsetNotZero

/-- The descriptor checks of R93 in their order (`RSV`, `OP`, `OFFSET`), and the `OP` values of R91. -/
def decode (c : Descriptor) : Except DecodeError Instr :=
  if rsvField c ≠ 0 then .error .reservedBits
  else
    match (opField c).toNat with
    | 1 => decodeNoOffset c .dec16
    | 2 => decodeNoOffset c .enc16
    | 3 => decodeNoOffset c .dec8
    | 4 => decodeNoOffset c .enc8
    | 5 => decodeNoOffset c .t7dec
    | 6 => .ok (.t7enc (offsetField c).toNat)
    | 7 => .ok (.ksx (offsetField c).toNat)
    | _ => .error .reservedOp

/-- The descriptor of an instruction, from the descriptor column of R91. -/
def encode : Instr → Descriptor
  | .dec16 => 0x0001#16
  | .enc16 => 0x0002#16
  | .dec8 => 0x0003#16
  | .enc8 => 0x0004#16
  | .t7dec => 0x0005#16
  | .t7enc o => 0x0006#16 ||| (BitVec.ofNat 16 o <<< 4)
  | .ksx o => 0x0007#16 ||| (BitVec.ofNat 16 o <<< 4)

/-- The descriptor whose low `nbits` bits are those of `w` and whose other bits are zero. -/
def tableDescriptor (nbits w : Nat) : Descriptor := BitVec.ofNat 16 (w % 2 ^ nbits)

/-- The instruction the decoder reads from a row's word of the opcode table. A descriptor is exactly one 16-bit
word (R90), so a number with a bit above bit 15 is none. -/
def decodeTableWord (nbits w : Nat) : Option Instr :=
  if w % 2 ^ nbits < 2 ^ 16 then (decode (tableDescriptor nbits w)).toOption else none

end Sys2Proof
end

