-- ==== Sys2Proof/Machine/State.lean ====
section
/-! DEFINITION. The state of the block (10_state.md): parameters, request registers, response registers, activity
and working registers; the error record (60_exceptions.md R210, R213, R214); the state after reset (R43). -/

namespace Sys2Proof.Machine

/-- The sub-functions an error record names (R37, R214). -/
inductive Stage where
  /-- NONE: the port checks. -/
  | none
  /-- ARG: the offset check of T7ENC. -/
  | arg
  /-- VALIDATE: the format check of T7DEC. -/
  | validate
  /-- PARSE: the parse of T7DEC. -/
  | parse
  /-- DEC16: the operation, or the stage of T7ENC. -/
  | dec16
  /-- ENC8: the operation, or the stage of T7ENC. -/
  | enc8
  /-- KSX: the operation, or the stage of T7DEC or T7ENC. -/
  | ksx
  /-- FORMAT: the formatting of T7ENC. -/
  | format
  /-- DEC8: the operation, or the stage of T7DEC. -/
  | dec8
  /-- ENC16: the operation, or the stage of T7DEC. -/
  | enc16
deriving DecidableEq, Repr

/-- The error conditions of R210, in its order. -/
inductive ErrCode where
  | e16LeadAfterLead
  | e16TrailWithoutLead
  | e16NontrailAfterLead
  | e16DanglingLead
  | ecpRange
  | ecpSurrogate
  | e8LowMidSeq
  | e8ContWithoutLead
  | e8NewBeforeEnd
  | e8InvalidLead
  | e8Truncated
  | e8Overlong
  | e7Parity
  | e7TooShort
  | e7SaltDigit
  | e7HashDigit
  /-- Reserved, never raised (R178). -/
  | e7Hex
  | e7OffsetRange
  | eCapacity
  | eIllegalOp
deriving DecidableEq, Repr

/-- The error record `ERR` (R213). The 8-bit and 4-bit forms of `code` and `stage` are `ErrCode.code` and
`Stage.tag`. -/
structure ErrRecord where
  code : ErrCode
  stage : Stage
  /-- A natural number, 0-based in the input of the stage named. -/
  index : Nat
  /-- 32 bits, two's complement. -/
  value : BitVec 32
deriving DecidableEq, Repr

/-- The response registers as the tagged outcome of R231: `STATUS` is the tag, `out` the success payload, `ERR` the
failure payload. A failed request gives `out` no value (R34), a successful one gives `ERR` none (R33). -/
inductive Response where
  /-- `STATUS` = OK, with `out`. -/
  | ok (out : List Lane)
  /-- `STATUS` = ERR, with `ERR`. -/
  | err (e : ErrRecord)
deriving DecidableEq, Repr

/-- The block's activity (R43, R240). -/
inductive Activity where
  /-- No request in progress. -/
  | idle
  /-- The host has presented a request and has had no response. -/
  | inProgress
deriving DecidableEq, Repr

/-- The working registers of R36 and R37. They exist only while an operation runs. -/
structure Work where
  /-- Index of the input element being processed. -/
  i : Nat
  /-- Output built so far, in lane containers. -/
  out : List Lane
  /-- DEC16: the pending lead, `(unit − 0xD800) << 10`. -/
  pend : Option (BitVec 20)
  /-- DEC8: the accumulator in progress. -/
  acc : Option (BitVec 21)
  /-- DEC8: continuation bytes still expected. -/
  rem : BitVec 2
  /-- DEC8: total length of the current sequence. -/
  tot : BitVec 3
  /-- The sub-function in progress. -/
  stage : Stage
  /-- T7DEC: the parsed salt. -/
  salt : BitVec 7
  /-- T7DEC: the hash bytes; T7ENC: the UTF-8 bytes, before KSX. -/
  raw : List Byte
  /-- T7DEC, T7ENC: the bytes after KSX. -/
  ks : List Byte
  /-- T7DEC, T7ENC: the intermediate code points. -/
  cps : List CodePoint
deriving DecidableEq, Repr

/-- What the working registers hold while no operation runs. The spec gives no value (R36, R42, R43); the model
holds this one, and every operation sets what it uses before it reads it (R241) (notes/assumptions/7.md). -/
def Work.idle : Work :=
  { i := 0, out := [], pend := Option.none, acc := Option.none, rem := 0, tot := 0, stage := .none, salt := 0,
    raw := [], ks := [], cps := [] }

/-- The whole state of the block. -/
structure State where
  /-- The built-in parameters of R7. No step writes them (R8, R40); they stand here so that a step, a function of
  the state alone, holds for every value of them (notes/assumptions/1.md). -/
  params : Params
  /-- `CMD` (R32). -/
  cmd : Descriptor
  /-- `in` (R32), in lane containers. Its length is `n`. -/
  input : List Lane
  /-- Idle, or a request in progress (R43). -/
  activity : Activity
  /-- `STATUS`, `out`, `ERR` (R33). -/
  resp : Response
  /-- Whether a request has completed since the last reset. Until one has, the response is not observable
  (R38, R43; notes/assumptions/19.md). -/
  responded : Bool
  /-- The working registers (R36, R37). -/
  work : Work
deriving DecidableEq, Repr

/-- The stuck cases of the host's part of the port. Only the host's functions of Machine/Port.lean raise them; no
step of the block does. -/
inductive Fault where
  /-- `hostPresent`: the host presents a request while another is in progress (R250: "the model gives it no step").
  Safe: the spec gives the act no effect. -/
  | requestWhileBusy
  /-- `hostChange`: the host changes `CMD` or `in` while a request is in progress (R251: "a model admits no such
  step"). Safe: the spec gives the act no effect. -/
  | requestChanged
deriving DecidableEq, Repr

/-- Why a step could be refused. No step of this model is. -/
inductive Refusal where
  /-- The instruction has no meaning in the model yet, by its mnemonic. Raised by no arm of `exec`. Safe. -/
  | notModelled (mnemonic : String)
deriving DecidableEq, Repr

/-- The block right after reset (R43, R240): idle, the parameters as built in, no response to observe. The request,
response and working registers are unspecified there; their values are the model's (notes/assumptions/6.md, 7.md). -/
def State.reset : State :=
  { params := Config.params, cmd := 0, input := [], activity := .idle, resp := .ok [], responded := false,
    work := Work.idle }

end Sys2Proof.Machine
end

