-- ==== Sys2Proof/Machine/Flags.lean ====
section
/-! DEFINITION. The one flag, `STATUS` (10_state.md R33, R38), and the numbers software reads in an error record
(60_exceptions.md R210, R211, R214). -/

namespace Sys2Proof.Machine

/-- `STATUS`: 0 = OK, 1 = ERR (R33). -/
def Response.status : Response → BitVec 1
  | .ok _ => 0#1
  | .err _ => 1#1

/-- `out`, which has a value only when `STATUS` = OK (R33, R34). -/
def Response.out : Response → Option (List Lane)
  | .ok out => some out
  | .err _ => Option.none

/-- `ERR`, which has a value only when `STATUS` = ERR (R33). -/
def Response.error : Response → Option ErrRecord
  | .ok _ => Option.none
  | .err e => some e

/-- The 8-bit codes of R210. -/
def ErrCode.code : ErrCode → Byte
  | .e16LeadAfterLead => 0x01#8
  | .e16TrailWithoutLead => 0x02#8
  | .e16NontrailAfterLead => 0x03#8
  | .e16DanglingLead => 0x04#8
  | .ecpRange => 0x05#8
  | .ecpSurrogate => 0x06#8
  | .e8LowMidSeq => 0x08#8
  | .e8ContWithoutLead => 0x09#8
  | .e8NewBeforeEnd => 0x0A#8
  | .e8InvalidLead => 0x0B#8
  | .e8Truncated => 0x0C#8
  | .e8Overlong => 0x0D#8
  | .e7Parity => 0x10#8
  | .e7TooShort => 0x11#8
  | .e7SaltDigit => 0x12#8
  | .e7HashDigit => 0x13#8
  | .e7Hex => 0x14#8
  | .e7OffsetRange => 0x15#8
  | .eCapacity => 0x1E#8
  | .eIllegalOp => 0x1F#8

/-- The 4-bit stage values of R214. -/
def Stage.tag : Stage → BitVec 4
  | .none => 0x0#4
  | .arg => 0x1#4
  | .validate => 0x2#4
  | .parse => 0x3#4
  | .dec16 => 0x4#4
  | .enc8 => 0x5#4
  | .ksx => 0x6#4
  | .format => 0x7#4
  | .dec8 => 0x8#4
  | .enc16 => 0x9#4

/-- The classes of R211. -/
inductive ErrClass where
  /-- (1) structural-format errors in the type-7 string. -/
  | type7Format
  /-- (2) UTF-16 structural errors. -/
  | utf16
  /-- (3) UTF-8 structural errors. -/
  | utf8
  /-- (4) code-point range errors. -/
  | codePointRange
  /-- None of the four: from the port decisions. -/
  | portDecision
deriving DecidableEq, Repr

/-- The class a code falls into (R211), by its number. -/
def ErrCode.errClass (c : ErrCode) : ErrClass :=
  let n := c.code.toNat
  if 0x10 ≤ n ∧ n ≤ 0x14 then .type7Format
  else if 0x01 ≤ n ∧ n ≤ 0x04 then .utf16
  else if 0x08 ≤ n ∧ n ≤ 0x0D then .utf8
  else if 0x05 ≤ n ∧ n ≤ 0x06 then .codePointRange
  else .portDecision

end Sys2Proof.Machine
end

