-- ==== Sys2Proof/Machine/Operands.lean ====
section
/-! DEFINITION. The operand forms: lanes (10_state.md R35), the data encodings (30_encoding.md R98 to R103) and the
key table's read port (20_memory.md R63). -/

namespace Sys2Proof.Machine

/-! ### Lanes -/

/-- The 16-bit lane of a container (R35). -/
def laneUnit (l : Lane) : CodeUnit := l.setWidth 16

/-- The 8-bit lane of a container (R35). -/
def laneByte (l : Lane) : Byte := l.setWidth 8

/-- A unit in its container. -/
def unitLane (u : CodeUnit) : Lane := u.setWidth 32

/-- A byte in its container. -/
def byteLane (b : Byte) : Lane := b.setWidth 32

/-- `n`, the length of the input (R32). -/
def State.n (s : State) : Nat := s.input.length

/-- The input of DEC16, T7DEC and T7ENC (R35). -/
def State.units (s : State) : List CodeUnit := s.input.map laneUnit

/-- The input of DEC8 and KSX (R35). -/
def State.bytes (s : State) : List Byte := s.input.map laneByte

/-- The input of ENC16 and ENC8 (R35): the widest lane fills its container. -/
def State.codePoints (s : State) : List CodePoint := s.input

/-! ### UTF-16 units -/

/-- The unit classes of R98. -/
inductive UnitClass where
  | lead
  | trail
  | nonSurrogate
deriving DecidableEq, Repr

/-- R98: the class of a unit. -/
def unitClass (u : CodeUnit) : UnitClass :=
  if 0xD800 ≤ u.toNat ∧ u.toNat ≤ 0xDBFF then .lead
  else if 0xDC00 ≤ u.toNat ∧ u.toNat ≤ 0xDFFF then .trail
  else .nonSurrogate

/-- R120: what a lead leaves pending, `(u − 0xD800) << 10`. -/
def pendingOf (u : CodeUnit) : BitVec 20 := (u - 0xD800#16).setWidth 20 <<< 10

/-- R123: the lead unit a pending value stands for, `0xD800 + (p >> 10)`. -/
def leadOfPending (p : BitVec 20) : CodeUnit := 0xD800#16 + (p >>> 10).setWidth 16

/-- R121: the code point of a pair, `p + (u − 0xDC00) + 0x10000`. -/
def pairCodePoint (p : BitVec 20) (u : CodeUnit) : CodePoint :=
  p.setWidth 32 + (u - 0xDC00#16).setWidth 32 + 0x10000#32

/-! ### Code points -/

/-- `CP_LIMIT`, an exclusive bound (R7; 90_conflicts.md C1). -/
def cpLimit : Int := 0x10FFFF

/-- The code-point classes of R101. -/
inductive CodePointClass where
  | outOfRange
  | surrogate
  | basic
  | supplementary
deriving DecidableEq, Repr

/-- R101: the class of a code-point lane, read as a signed integer (R35). -/
def codePointClass (cp : CodePoint) : CodePointClass :=
  if cp.toInt < 0 ∨ cpLimit ≤ cp.toInt then .outOfRange
  else if 0xD800 ≤ cp.toInt ∧ cp.toInt ≤ 0xDFFF then .surrogate
  else if cp.toInt ≤ 0xFFFF then .basic
  else .supplementary

/-- R126: the lead of a supplementary code point, `0xD800 + ((rest >> 10) & 0x3FF)`. -/
def leadOf (cp : CodePoint) : CodeUnit :=
  0xD800#16 + (((cp - 0x10000#32) >>> 10) &&& 0x3FF#32).setWidth 16

/-- R126: the trail of a supplementary code point, `0xDC00 + (rest & 0x3FF)`. -/
def trailOf (cp : CodePoint) : CodeUnit :=
  0xDC00#16 + ((cp - 0x10000#32) &&& 0x3FF#32).setWidth 16

/-- R100, R150: the bytes of a code point in [0, `CP_LIMIT`), by its length class. -/
def utf8Bytes (cp : CodePoint) : List Byte :=
  if cp.toNat < 0x80 then [cp.setWidth 8]
  else if cp.toNat < 0x800 then
    [(0xC0#32 ||| (cp >>> 6)).setWidth 8, (0x80#32 ||| (cp &&& 0x3F#32)).setWidth 8]
  else if cp.toNat < 0x10000 then
    [(0xE0#32 ||| (cp >>> 12)).setWidth 8, (0x80#32 ||| ((cp >>> 6) &&& 0x3F#32)).setWidth 8,
      (0x80#32 ||| (cp &&& 0x3F#32)).setWidth 8]
  else
    [(0xF0#32 ||| (cp >>> 18)).setWidth 8, (0x80#32 ||| ((cp >>> 12) &&& 0x3F#32)).setWidth 8,
      (0x80#32 ||| ((cp >>> 6) &&& 0x3F#32)).setWidth 8, (0x80#32 ||| (cp &&& 0x3F#32)).setWidth 8]

/-! ### UTF-8 bytes -/

/-- The byte classes of R99, a lead with its payload and the values it seeds into `rem` and `tot`. -/
inductive ByteClass where
  | single
  | continuation
  | lead (payload : BitVec 21) (rem : BitVec 2) (tot : BitVec 3)
  | invalid
deriving DecidableEq, Repr

/-- R99: the class of a byte, tested in the order of R147. -/
def byteClass (b : Byte) : ByteClass :=
  if b.extractLsb' 7 1 = 0#1 then .single
  else if b.extractLsb' 6 2 = 0b10#2 then .continuation
  else if b.extractLsb' 3 5 = 0b11110#5 then .lead ((b.extractLsb' 0 3).setWidth 21) 3 4
  else if b.extractLsb' 4 4 = 0b1110#4 then .lead ((b.extractLsb' 0 4).setWidth 21) 2 3
  else if b.extractLsb' 5 3 = 0b110#3 then .lead ((b.extractLsb' 0 5).setWidth 21) 1 2
  else .invalid

/-- R141: a continuation byte folded into the accumulator, `(a << 6) | (b & 0x3F)`. -/
def foldByte (a : BitVec 21) (b : Byte) : BitVec 21 := (a <<< 6) ||| (b &&& 0x3F#8).setWidth 21

/-- The number `FOUR_BYTE_MIN` stands for (R7, R143). -/
def fourByteBound : FourByteMin → Nat
  | .x80 => 0x80
  | .x800 => 0x800
  | .x10000 => 0x10000

/-- `shortest_ok(v, t)` of R143. -/
def shortestOk (m : FourByteMin) (v : BitVec 21) (t : BitVec 3) : Bool :=
  decide (0x7F < v.toNat)
    && (t != 2#3 || decide (0x7F < v.toNat))
    && (t != 3#3 || decide (0x7FF < v.toNat))
    && (t != 4#3 || decide (fourByteBound m ≤ v.toNat))

/-! ### Type-7 text -/

/-- `DIGIT` of R102. -/
def isDigit (u : CodeUnit) : Bool := decide (0x30 ≤ u.toNat ∧ u.toNat ≤ 0x39)

/-- `HEX` of R102: lower-case letters are not. -/
def isHex (u : CodeUnit) : Bool := isDigit u || decide (0x41 ≤ u.toNat ∧ u.toNat ≤ 0x46)

/-- `dec(u)` of R103. -/
def decValue (u : CodeUnit) : Nat := u.toNat - 0x30

/-- `hex(u)` of R103. -/
def hexValue (u : CodeUnit) : Nat := if isDigit u then u.toNat - 0x30 else u.toNat - 0x41 + 10

/-- `hexchar(v)` of R103: upper case. -/
def hexChar (v : BitVec 4) : CodeUnit :=
  if v.toNat ≤ 9 then 0x30#16 + v.setWidth 16 else 0x41#16 + (v.setWidth 16 - 10#16)

/-- The salt of R177, `10 * dec(t[0]) + dec(t[1])`, tens digit first (R67). -/
def saltValue (t0 t1 : CodeUnit) : BitVec 7 := BitVec.ofNat 7 (10 * decValue t0 + decValue t1)

/-- One hash byte of R177, `16 * hex(hi) + hex(lo)`, high nibble first (R67). -/
def hashByte (hi lo : CodeUnit) : Byte := BitVec.ofNat 8 (16 * hexValue hi + hexValue lo)

/-- The hash's digits in pairs, in order: pair j is digits `2j` and `2j + 1` of the hash (R67). -/
def hexPairs : List CodeUnit → List (CodeUnit × CodeUnit)
  | hi :: lo :: rest => (hi, lo) :: hexPairs rest
  | _ => []

/-- The two salt digits of R182 for an offset of at most 99: tens, then units. -/
def saltDigits (o : Nat) : List CodeUnit :=
  [BitVec.ofNat 16 (0x30 + o / 10), BitVec.ofNat 16 (0x30 + o % 10)]

/-- The two hex digits of R182 for a byte: high nibble, then low nibble. -/
def hexDigits (b : Byte) : List CodeUnit := [hexChar (b.extractLsb' 4 4), hexChar (b.extractLsb' 0 4)]

/-! ### The key table -/

/-- `K(j mod KEY_LEN)` (R63, R170): every index is reduced first, and the entry is zero-extended to a byte. -/
def keyByte (k : KeyTable) (j : Nat) : Byte :=
  (k[j % keyLen]'(Nat.mod_lt j (by decide))).setWidth 8

/-! ### The value field of an error record -/

/-- A natural number as the 32-bit two's-complement `value` of an error with code number `code` (R213). Below 2³¹ it
is the number; the spec states no value above (notes/assumptions/5.md). -/
def natValue (code : Byte) (n : Nat) : BitVec 32 :=
  if n < 2 ^ 31 then BitVec.ofNat 32 n else Config.wideValue code n

end Sys2Proof.Machine
end

