-- ==== Sys2Proof/Machine/Ops.lean ====
section
/-! DEFINITION. The operations every meaning is built from: the loop over elements (00_scope.md R14), raising an
error, the two ends of a request, and the failure path that stands for trap entry (60_exceptions.md R215 to R221). -/

namespace Sys2Proof.Machine

/-- How the body of an operation ends: with its working registers, or with the record of the error it raised. -/
abbrev Result := Except ErrRecord Work

/-! ### Working registers -/

/-- `raise code(index, value)` of R14: the record names the stage in progress (R213, R214). -/
def raise (w : Work) (code : ErrCode) (index : Nat) (value : BitVec 32) : Result :=
  .error { code := code, stage := w.stage, index := index, value := value }

/-- `raise` at the element in progress: the index is `i` (R215, R218). -/
def raiseHere (w : Work) (code : ErrCode) (value : BitVec 32) : Result := raise w code w.i value

/-- A stage begins: `stage` names it and its loop starts with `i` = 0 and `out` = `[]` (R241). -/
def enter (st : Stage) (w : Work) : Work := { w with stage := st, i := 0, out := [] }

/-- The loop moves on to the next element (R39). -/
def advance (w : Work) : Work := { w with i := w.i + 1 }

/-- `append(out, v)` of R14, for each of the lanes given, in order (R62). -/
def emit (ls : List Lane) (w : Work) : Work := { w with out := w.out ++ ls }

/-- `for i in 0 .. n-1`: the elements in increasing order, ended by the first error (R14, R61, R215). -/
def scan {α : Type} (f : Work → α → Result) : List α → Work → Result
  | [], w => .ok w
  | a :: as, w =>
    match f w a with
    | .ok w' => scan f as w'
    | .error e => .error e

/-! ### The two ends of a request -/

/-- Success: `STATUS` = OK and `out` is the whole sequence appended (R33, R62). The block is idle again, the host may
read the response (R38), and no working register survives (R42). The request stays as the host wrote it (R32). -/
def State.succeed (out : List Lane) (s : State) : State :=
  { s with resp := .ok out, responded := true, activity := .idle, work := Work.idle }

/-- Failure, the block's counterpart of trap entry (R217): `STATUS` = ERR and `ERR` is written, `out` holds no
result, no working register survives, no return state is saved, no mode changes. The host may read the response (R38);
the block is idle and takes the next request like any other; there is no return from an error (R219). -/
def State.fail (e : ErrRecord) (s : State) : State :=
  { s with resp := .err e, responded := true, activity := .idle, work := Work.idle }

/-- The response of an operation whose body ended in `r`: always one or the other, written once (R33, R38). -/
def complete (r : Result) (s : State) : Host.Outcome State Fault Refusal :=
  match r with
  | .ok w => .next (s.succeed w.out)
  | .error e => .next (s.fail e)

end Sys2Proof.Machine
end

