-- ==== Sys2Proof/Machine/Utf16.lean ====
section
/-! DEFINITION. The UTF-16 operations of the CodePointCodec (40_utf16.md): DEC16 and ENC16. -/

namespace Sys2Proof.Machine

/-- One unit of DEC16: the lead step R120, the trail step R121 and the non-surrogate step R122. -/
def dec16Elem (w : Work) (u : CodeUnit) : Result :=
  match unitClass u, w.pend with
  | .lead, some _ => raiseHere w .e16LeadAfterLead (unitLane u)
  | .lead, Option.none => .ok (advance { w with pend := some (pendingOf u) })
  | .trail, Option.none => raiseHere w .e16TrailWithoutLead (unitLane u)
  | .trail, some p => .ok (advance { emit [pairCodePoint p u] w with pend := Option.none })
  | .nonSurrogate, some _ => raiseHere w .e16NontrailAfterLead (unitLane u)
  | .nonSurrogate, Option.none => .ok (advance (emit [unitLane u] w))

/-- The end step of DEC16 (R123). The index is `i`, which stands at `n` there. -/
def dec16End (w : Work) : Result :=
  match w.pend with
  | some p => raiseHere w .e16DanglingLead (unitLane (leadOfPending p))
  | Option.none => .ok w

/-- The body of DEC16 (R124), over any unit sequence: the operation's input, or the stage's in T7ENC. -/
def dec16 (us : List CodeUnit) (w : Work) : Result := do
  let w ← scan dec16Elem us { enter .dec16 w with pend := Option.none }
  dec16End w

/-- One code point of ENC16 (R126). -/
def enc16Elem (w : Work) (cp : CodePoint) : Result :=
  match codePointClass cp with
  | .outOfRange => raiseHere w .ecpRange cp
  | .surrogate => raiseHere w .ecpSurrogate cp
  | .supplementary => .ok (advance (emit [unitLane (leadOf cp), unitLane (trailOf cp)] w))
  | .basic => .ok (advance (emit [unitLane (cp.setWidth 16)] w))

/-- The body of ENC16 (R126), over any code-point sequence. -/
def enc16 (cps : List CodePoint) (w : Work) : Result := scan enc16Elem cps (enter .enc16 w)

/-- DEC16 (R124). -/
def execDec16 (s : State) : Host.Outcome State Fault Refusal := complete (dec16 s.units s.work) s

/-- ENC16 (R126). -/
def execEnc16 (s : State) : Host.Outcome State Fault Refusal := complete (enc16 s.codePoints s.work) s

end Sys2Proof.Machine
end

