-- ==== Sys2Proof/Machine/Utf8.lean ====
section
/-! DEFINITION. The UTF-8 operations of the CodePointCodec (41_utf8.md): DEC8 and ENC8. -/

namespace Sys2Proof.Machine

/-- The completion step of DEC8, the overlong-encoding validator (R142, R143), on the completed value `v`. -/
def dec8Complete (m : FourByteMin) (w : Work) (v : BitVec 21) : Result :=
  if shortestOk m v w.tot then .ok (advance { emit [v.setWidth 32] w with acc := Option.none, tot := 0 })
  else raiseHere w .e8Overlong (v.setWidth 32)

/-- One byte of DEC8: the single-byte step R140, the continuation step R141 with its completion R142, the
leading-byte step R144 and the invalid-byte step R145. -/
def dec8Elem (m : FourByteMin) (w : Work) (b : Byte) : Result :=
  match byteClass b, w.acc with
  | .single, some _ => raiseHere w .e8LowMidSeq (byteLane b)
  | .single, Option.none => .ok (advance (emit [byteLane b] w))
  | .continuation, Option.none => raiseHere w .e8ContWithoutLead (byteLane b)
  | .continuation, some a =>
    let w' : Work := { w with acc := some (foldByte a b), rem := w.rem - 1 }
    if w'.rem = 0 then dec8Complete m w' (foldByte a b) else .ok (advance w')
  | .lead _ _ _, some _ => raiseHere w .e8NewBeforeEnd (byteLane b)
  | .lead p r t, Option.none => .ok (advance { w with acc := some p, rem := r, tot := t })
  | .invalid, _ => raiseHere w .e8InvalidLead (byteLane b)

/-- The end step of DEC8 (R145). The index is `i`, which stands at `n` there. -/
def dec8End (w : Work) : Result :=
  if w.rem = 0 then .ok w else raiseHere w .e8Truncated (w.rem.setWidth 32)

/-- The body of DEC8 (R146), over any byte sequence: the operation's input, or the stage's in T7DEC. -/
def dec8 (m : FourByteMin) (bs : List Byte) (w : Work) : Result := do
  let w ← scan (dec8Elem m) bs { enter .dec8 w with acc := Option.none, rem := 0, tot := 0 }
  dec8End w

/-- One code point of ENC8 (R150): a range check and no surrogate check (90_conflicts.md C2). -/
def enc8Elem (w : Work) (cp : CodePoint) : Result :=
  if cp.toInt < 0 ∨ cpLimit ≤ cp.toInt then raiseHere w .ecpRange cp
  else .ok (advance (emit ((utf8Bytes cp).map byteLane) w))

/-- The body of ENC8 (R150), over any code-point sequence. -/
def enc8 (cps : List CodePoint) (w : Work) : Result := scan enc8Elem cps (enter .enc8 w)

/-- DEC8 (R146). -/
def execDec8 (s : State) : Host.Outcome State Fault Refusal :=
  complete (dec8 s.params.fourByteMin s.bytes s.work) s

/-- ENC8 (R150). -/
def execEnc8 (s : State) : Host.Outcome State Fault Refusal := complete (enc8 s.codePoints s.work) s

end Sys2Proof.Machine
end

