-- ==== Sys2Proof/Machine/Type7.lean ====
section
/-! DEFINITION. The Type7Cipher (42_type7.md): KSX, T7DEC and T7ENC. -/

namespace Sys2Proof.Machine

/-! ### The keystream -/

/-- One byte of the keystream transform: position `i` of the sequence meets key entry `(o + i) mod KEY_LEN`
(R170, R171). -/
def ksxElem (k : KeyTable) (o : Nat) (w : Work) (b : Byte) : Result :=
  .ok (advance (emit [byteLane (b ^^^ keyByte k (o + w.i))] w))

/-- The body of KSX (R172), over any byte sequence. -/
def ksx (k : KeyTable) (o : Nat) (bs : List Byte) (w : Work) : Result :=
  scan (ksxElem k o) bs (enter .ksx w)

/-! ### The stages of T7DEC -/

/-- One unit of the VALIDATE scan (R176): a salt digit at index 0 or 1, a hash digit from index 2 on. -/
def validateElem (w : Work) (u : CodeUnit) : Result :=
  if w.i < 2 then
    if isDigit u then .ok (advance w) else raiseHere w .e7SaltDigit (unitLane u)
  else
    if isHex u then .ok (advance w) else raiseHere w .e7HashDigit (unitLane u)

/-- The VALIDATE stage in the priority order of R176: parity, length, salt digits, hash digits. -/
def validate (t : List CodeUnit) (w : Work) : Result :=
  let w := enter .validate w
  let n := t.length
  if n % 2 = 1 then raise w .e7Parity n (natValue ErrCode.e7Parity.code n)
  else if n < 2 then raise w .e7TooShort n (natValue ErrCode.e7TooShort.code n)
  else scan validateElem t w

/-- One pair of hash digits of the PARSE stage (R177). -/
def parseElem (w : Work) (p : CodeUnit × CodeUnit) : Result :=
  .ok (advance { w with raw := w.raw ++ [hashByte p.1 p.2] })

/-- The PARSE stage (R177), on a text VALIDATE has passed: `salt` from the first two units, `raw` from the rest. It
cannot fail (R178). -/
def parse (t : List CodeUnit) (w : Work) : Result :=
  scan parseElem (hexPairs (t.drop 2))
    { enter .parse w with salt := saltValue (t.getD 0 0) (t.getD 1 0), raw := [] }

/-- The body of T7DEC (R175, R180). A stage starts only when the one before it has succeeded, and an error inside
one ends the operation with that stage's own record (R179). -/
def t7dec (p : Params) (t : List CodeUnit) (w : Work) : Result := do
  let w ← validate t { w with raw := [], ks := [], cps := [] }
  let w ← parse t w
  let w ← ksx p.keyTable w.salt.toNat w.raw w
  let w : Work := { w with ks := w.out.map laneByte }
  let w ← dec8 p.fourByteMin w.ks w
  let w : Work := { w with cps := w.out }
  enc16 w.cps w

/-! ### The stages of T7ENC -/

/-- The ARG stage (R183): an offset above 99 cannot be written in two digits. -/
def argCheck (o : Nat) (w : Work) : Result :=
  let w := enter .arg w
  if 99 < o then raise w .e7OffsetRange 0 (natValue ErrCode.e7OffsetRange.code o) else .ok w

/-- One ciphertext byte of the FORMAT stage (R182). -/
def formatElem (w : Work) (b : Byte) : Result :=
  .ok (advance (emit ((hexDigits b).map unitLane) w))

/-- The FORMAT stage (R182): the salt digits, then two upper-case hex digits a byte. -/
def format (o : Nat) (c : List Byte) (w : Work) : Result :=
  scan formatElem c (emit ((saltDigits o).map unitLane) (enter .format w))

/-- The body of T7ENC (R181, R184). -/
def t7enc (k : KeyTable) (o : Nat) (p : List CodeUnit) (w : Work) : Result := do
  let w ← argCheck o { w with raw := [], ks := [], cps := [] }
  let w ← dec16 p w
  let w : Work := { w with cps := w.out }
  let w ← enc8 w.cps w
  let w : Work := { w with raw := w.out.map laneByte }
  let w ← ksx k o w.raw w
  let w : Work := { w with ks := w.out.map laneByte }
  format o w.ks w

/-! ### The operations -/

/-- T7DEC (R180). -/
def execT7dec (s : State) : Host.Outcome State Fault Refusal := complete (t7dec s.params s.units s.work) s

/-- T7ENC (R184). -/
def execT7enc (o : Nat) (s : State) : Host.Outcome State Fault Refusal :=
  complete (t7enc s.params.keyTable o s.units s.work) s

/-- KSX (R172). -/
def execKsx (o : Nat) (s : State) : Host.Outcome State Fault Refusal :=
  complete (ksx s.params.keyTable o s.bytes s.work) s

end Sys2Proof.Machine
end

