-- ==== Sys2Proof/Machine/Dispatch.lean ====
section
/-! DEFINITION. One arm per operation of the opcode table. -/

namespace Sys2Proof.Machine

def exec (i : Instr) (s : State) : Host.Outcome State Fault Refusal :=
  match i with
  | .dec16 => Sys2Proof.Machine.execDec16 s
  | .enc16 => Sys2Proof.Machine.execEnc16 s
  | .dec8 => Sys2Proof.Machine.execDec8 s
  | .enc8 => Sys2Proof.Machine.execEnc8 s
  | .t7dec => Sys2Proof.Machine.execT7dec s
  | .t7enc o => Sys2Proof.Machine.execT7enc o s
  | .ksx o => Sys2Proof.Machine.execKsx o s

end Sys2Proof.Machine
end

