-- ==== Sys2Proof/Machine/Port.lean ====
section
/-! DEFINITION. The request port: the checks made before an operation starts (30_encoding.md R93, 20_memory.md R73,
60_exceptions.md R212), and what the host does at the port (70_reset_and_hazards.md R243, R250, R251). -/

namespace Sys2Proof.Machine

/-! ### The block's side -/

/-- Whether an input of length `n` exceeds `MAX_IN_LEN`; never when it is unbounded (R73). -/
def overCapacity (limit : Option Nat) (n : Nat) : Bool :=
  n != 0 && (match limit with | some m => decide (m < n) | Option.none => false)

/-- The record of `E_ILLEGAL_OP`: index 0, value `CMD`, stage NONE (R93, R210). -/
def illegalOp (c : Descriptor) : ErrRecord :=
  { code := .eIllegalOp, stage := .none, index := 0, value := c.setWidth 32 }

/-- The record of `E_CAPACITY`: index `n`, value `MAX_IN_LEN`, stage NONE (R73, R210). -/
def capacityError (limit n : Nat) : ErrRecord :=
  { code := .eCapacity, stage := .none, index := n, value := natValue ErrCode.eCapacity.code limit }

/-- What the block does with what stands at the port. -/
inductive PortAction where
  /-- No request in progress: the block waits for one (R242). -/
  | wait
  /-- A port check fails, before any input element is read (R212). -/
  | reject (e : ErrRecord)
  /-- The descriptor names this operation and the input fits. -/
  | perform (i : Instr)
deriving DecidableEq, Repr

/-- R93: the descriptor checks, then the capacity check; the first that fails decides the response. -/
def portAction (s : State) : PortAction :=
  match s.activity with
  | .idle => .wait
  | .inProgress =>
    match decode s.cmd with
    | .error _ => .reject (illegalOp s.cmd)
    | .ok i =>
      if overCapacity s.params.maxInLen s.n then .reject (capacityError (s.params.maxInLen.getD 0) s.n)
      else .perform i

/-! ### The host's side -/

/-- The host presents a request (R32, R250). While another is in progress the act has no effect and no step. Once the
response is written the act goes through whether or not the host has read it: DESIGN CHOICE, the model keeps no record
of the read (R251; notes/assumptions/20.md). -/
def hostPresent (c : Descriptor) (input : List Lane) (s : State) : Host.Outcome State Fault Refusal :=
  match s.activity with
  | .idle => .next { s with cmd := c, input := input, activity := .inProgress }
  | .inProgress => .fault .requestWhileBusy

/-- What an assembler makes of a request line: the descriptor of R91 and the list as the input (R105). -/
def hostIssue (i : Instr) (input : List Lane) (s : State) : Host.Outcome State Fault Refusal :=
  hostPresent (encode i) input s

/-- The host writes the request registers without presenting a request. While one is in progress it must hold them
(R251). R251's duty lasts until the host has read the response; between completion and read the act goes through here:
DESIGN CHOICE, the model keeps no record of the read (notes/assumptions/20.md). -/
def hostChange (c : Descriptor) (input : List Lane) (s : State) : Host.Outcome State Fault Refusal :=
  match s.activity with
  | .idle => .next { s with cmd := c, input := input }
  | .inProgress => .fault .requestChanged

/-- The host asserts reset (R243): the block is as after reset, with the parameters it was built with (R43, R240). A
request in progress gets no response, and there is none to read until a later request completes. -/
def hostReset (s : State) : State := { State.reset with params := s.params }

/-- The host reads the response, which it may once the request has completed (R33, R38). While one is in progress, and
after reset until one has completed, there is none to observe (R38, R43, R243). -/
def hostRead (s : State) : Option Response :=
  match s.activity with
  | .idle => if s.responded then some s.resp else Option.none
  | .inProgress => Option.none

end Sys2Proof.Machine
end

