-- ==== Sys2Proof/Machine/Step.lean ====
section
/-! DEFINITION. One step: the whole of one request, from the port checks to the response (00_scope.md R4,
20_memory.md R70). -/

namespace Sys2Proof.Machine

/-- A step of the block. Idle, it waits for a request (R242; notes/assumptions/9.md). With a request in progress it
performs it whole and responds (R4, R70, R254). -/
def step (s : State) : Host.Outcome State Fault Refusal :=
  match portAction s with
  | .wait => .next s
  | .reject e => .next (s.fail e)
  | .perform i => exec i s

/-- The host's presenting of the descriptor `w` with the input that stands in the request registers
(notes/assumptions/8.md): the next step performs it. On an idle block it is `hostPresent`. On a block with a request in
progress, where R250 leaves presenting undefined and `hostPresent` faults, it puts the descriptor in place of the one in
progress: DESIGN CHOICE, it stands for no act of the host there. -/
def State.withFetchWord (s : State) (nbits w : Nat) : State :=
  { s with cmd := tableDescriptor nbits w, activity := .inProgress }

end Sys2Proof.Machine
end

