-- ==== Sys2Proof/Machine/Bounds.lean ====
section
/-! DEFINITION. The element steps an operation takes (70_reset_and_hazards.md R252): "counts of the pseudocode's loop
iterations", not times. An end check that is reached counts as one (notes/assumptions/13.md). -/

namespace Sys2Proof.Machine

/-- The elements a loop visits: all of them, or those up to the first that raises an error (R215). -/
def visited {α : Type} (f : Work → α → Result) : List α → Work → Nat
  | [], _ => 0
  | a :: as, w =>
    match f w a with
    | .ok w' => 1 + visited f as w'
    | .error _ => 1

/-- The steps of what follows `r`: none when `r` is an error (R215). -/
def stepsAfter (r : Result) (next : Work → Nat) : Nat :=
  match r with
  | .ok w => next w
  | .error _ => 0

/-- DEC16: the units, and the end check of R123. -/
def dec16Steps (us : List CodeUnit) (w : Work) : Nat :=
  let w : Work := { enter .dec16 w with pend := Option.none }
  visited dec16Elem us w + stepsAfter (scan dec16Elem us w) fun _ => 1

/-- ENC16: the code points. -/
def enc16Steps (cps : List CodePoint) (w : Work) : Nat := visited enc16Elem cps (enter .enc16 w)

/-- DEC8: the bytes, and the end check of R145. -/
def dec8Steps (m : FourByteMin) (bs : List Byte) (w : Work) : Nat :=
  let w : Work := { enter .dec8 w with acc := Option.none, rem := 0, tot := 0 }
  visited (dec8Elem m) bs w + stepsAfter (scan (dec8Elem m) bs w) fun _ => 1

/-- ENC8: the code points. -/
def enc8Steps (cps : List CodePoint) (w : Work) : Nat := visited enc8Elem cps (enter .enc8 w)

/-- KSX: the bytes. -/
def ksxSteps (k : KeyTable) (o : Nat) (bs : List Byte) (w : Work) : Nat :=
  visited (ksxElem k o) bs (enter .ksx w)

/-- VALIDATE: the units, when the checks on the length have passed. -/
def validateSteps (t : List CodeUnit) (w : Work) : Nat :=
  if t.length % 2 = 1 then 0 else if t.length < 2 then 0 else visited validateElem t (enter .validate w)

/-- PARSE: the pairs of hash digits. -/
def parseSteps (t : List CodeUnit) (w : Work) : Nat := visited parseElem (hexPairs (t.drop 2)) w

/-- FORMAT: the ciphertext bytes. -/
def formatSteps (c : List Byte) (w : Work) : Nat := visited formatElem c w

/-- T7DEC: VALIDATE, PARSE, KSX, DEC8, ENC16, each counted when the ones before it have succeeded. -/
def t7decSteps (p : Params) (t : List CodeUnit) (w : Work) : Nat :=
  let w : Work := { w with raw := [], ks := [], cps := [] }
  validateSteps t w + stepsAfter (validate t w) fun w =>
  parseSteps t w + stepsAfter (parse t w) fun w =>
  ksxSteps p.keyTable w.salt.toNat w.raw w + stepsAfter (ksx p.keyTable w.salt.toNat w.raw w) fun w =>
  dec8Steps p.fourByteMin (w.out.map laneByte) w + stepsAfter (dec8 p.fourByteMin (w.out.map laneByte) w) fun w =>
  enc16Steps w.out w

/-- T7ENC: ARG, DEC16, ENC8, KSX, FORMAT, each counted when the ones before it have succeeded. -/
def t7encSteps (k : KeyTable) (o : Nat) (p : List CodeUnit) (w : Work) : Nat :=
  1 + stepsAfter (argCheck o w) fun w =>
  dec16Steps p w + stepsAfter (dec16 p w) fun w =>
  enc8Steps w.out w + stepsAfter (enc8 w.out w) fun w =>
  ksxSteps k o (w.out.map laneByte) w + stepsAfter (ksx k o (w.out.map laneByte) w) fun w =>
  formatSteps (w.out.map laneByte) w

/-- The element steps of an operation on the request of a state. -/
def elementSteps (i : Instr) (s : State) : Nat :=
  match i with
  | .dec16 => dec16Steps s.units s.work
  | .enc16 => enc16Steps s.codePoints s.work
  | .dec8 => dec8Steps s.params.fourByteMin s.bytes s.work
  | .enc8 => enc8Steps s.codePoints s.work
  | .t7dec => t7decSteps s.params s.units s.work
  | .t7enc o => t7encSteps s.params.keyTable o s.units s.work
  | .ksx o => ksxSteps s.params.keyTable o s.bytes s.work

/-- The bounds of R252's table, for an input of length `n`. DESIGN CHOICE: `(n − 2)/2` of the T7DEC row is taken on
natural numbers, 0 for `n` < 2, where R11's integers make it negative, and rounded down for an odd `n`; so the row's
bound is 1 at `n` = 0 and 2 at `n` = 1 (notes/assumptions/13.md). -/
def stepBound (i : Instr) (n : Nat) : Nat :=
  match i with
  | .dec16 => n + 1
  | .enc16 => n + 1
  | .dec8 => n + 1
  | .enc8 => n + 1
  | .ksx _ => n + 1
  | .t7dec => n + (n - 2) / 2 + (n - 2) / 2 + ((n - 2) / 2 + 1) + (n - 2) / 2
  | .t7enc _ => 1 + (n + 1) + n + 3 * n + 3 * n

end Sys2Proof.Machine
end

