-- ==== Sys2Proof/Safety.lean ====
section
/-! DEFINITION. What the statements say a correct answer is, written from the spec's tables and grammar in plain
arithmetic, apart from the meanings: the forms of a code point (30_encoding.md R98 to R100), type-7 text (R102), the
error records of 60_exceptions.md R210, and the state a completed request leaves. -/

namespace Sys2Proof.Safety

open Sys2Proof.Machine

/-! ### The state a completed request leaves -/

/-- `s` with its request answered by `r`: the response is written (R33) and can be read (R38), the block is idle and no
working register survives (R42, R217), and nothing else changes: not the parameters (R8, R40), not the request (R32). -/
def answered (s : State) (r : Response) : State :=
  { params := s.params, cmd := s.cmd, input := s.input, activity := .idle, resp := r, responded := true,
    work := Work.idle }

/-- Whether the input of `s` fits the block (R73). -/
def Fits (s : State) : Prop := ∀ m, s.params.maxInLen = some m → s.input.length ≤ m

/-! ### Code points and their forms -/

/-- A value in the surrogate range [0xD800, 0xDFFF]. -/
abbrev IsSurrogate (c : Nat) : Prop := 0xD800 ≤ c ∧ c ≤ 0xDFFF

/-- A lead surrogate (R98). -/
abbrev IsLead (u : CodeUnit) : Prop := 0xD800 ≤ u.toNat ∧ u.toNat ≤ 0xDBFF

/-- A trail surrogate (R98). -/
abbrev IsTrail (u : CodeUnit) : Prop := 0xDC00 ≤ u.toNat ∧ u.toNat ≤ 0xDFFF

/-- A code point some unit or pair stands for (R98, R125). -/
abbrev HasUnits (c : Nat) : Prop := c ≤ 0x10FFFF ∧ ¬ IsSurrogate c

/-- A valid code point: in [0, 0x10FFFF) and no surrogate (R17, R127). -/
abbrev Valid (c : Nat) : Prop := c < 0x10FFFF ∧ ¬ IsSurrogate c

/-- A code point in its lane. -/
def cpLane (c : Nat) : Lane := BitVec.ofNat 32 c

/-- Units in their lanes: the same numbers in wider containers. -/
def unitLanes (us : List CodeUnit) : List Lane := us.map fun u => BitVec.ofNat 32 u.toNat

/-- Bytes in their lanes. -/
def byteLanes (bs : List Byte) : List Lane := bs.map fun b => BitVec.ofNat 32 b.toNat

/-- The unit, or the pair, that stands for a code point (R98): lead 0xD800 + ⌊(c − 0x10000) / 2¹⁰⌋, trail
0xDC00 + (c − 0x10000) mod 2¹⁰. -/
def unitForm (c : Nat) : List CodeUnit :=
  if c < 0x10000 then [BitVec.ofNat 16 c]
  else [BitVec.ofNat 16 (0xD800 + (c - 0x10000) / 0x400), BitVec.ofNat 16 (0xDC00 + (c - 0x10000) % 0x400)]

/-- The units of a code-point sequence, each lead before its trail (R65). -/
def unitForms (cps : List Nat) : List CodeUnit := cps.flatMap unitForm

/-- A UTF-8 sequence of `len` bytes for the value `value`, the shortest form or not. -/
structure Utf8Seq where
  len : Nat
  value : Nat
deriving DecidableEq, Repr

/-- The number of values a sequence of a length can hold: 2⁷, 2¹¹, 2¹⁶, 2²¹ (R99, R100). -/
def seqLimit : Nat → Nat
  | 1 => 0x80
  | 2 => 0x800
  | 3 => 0x10000
  | 4 => 0x200000
  | _ => 0

/-- The sequence exists: 1 to 4 bytes, and the value fits its payload bits. -/
abbrev Utf8Seq.Fits (q : Utf8Seq) : Prop := q.value < seqLimit q.len

/-- The least value DEC8 accepts in a sequence of a length (R143, R149). -/
def seqLeast (m : FourByteMin) : Nat → Nat
  | 2 => 0x80
  | 3 => 0x800
  | 4 => fourByteBound m
  | _ => 0

/-- The sequence exists and is no overlong encoding under the setting `m` (R143, R149). -/
abbrev Utf8Seq.Accepted (m : FourByteMin) (q : Utf8Seq) : Prop := q.Fits ∧ seqLeast m q.len ≤ q.value

/-- The bytes of a sequence by the layout of R100, six payload bits a continuation byte. -/
def Utf8Seq.bytes (q : Utf8Seq) : List Byte :=
  match q.len with
  | 1 => [BitVec.ofNat 8 q.value]
  | 2 => [BitVec.ofNat 8 (0xC0 + q.value / 0x40), BitVec.ofNat 8 (0x80 + q.value % 0x40)]
  | 3 => [BitVec.ofNat 8 (0xE0 + q.value / 0x1000), BitVec.ofNat 8 (0x80 + q.value / 0x40 % 0x40),
      BitVec.ofNat 8 (0x80 + q.value % 0x40)]
  | 4 => [BitVec.ofNat 8 (0xF0 + q.value / 0x40000), BitVec.ofNat 8 (0x80 + q.value / 0x1000 % 0x40),
      BitVec.ofNat 8 (0x80 + q.value / 0x40 % 0x40), BitVec.ofNat 8 (0x80 + q.value % 0x40)]
  | _ => []

/-- Sequences one after another, each leading byte first (R66). -/
def seqBytes (qs : List Utf8Seq) : List Byte := qs.flatMap Utf8Seq.bytes

/-- The shortest-encoding lengths of R100. -/
def shortestLen (c : Nat) : Nat :=
  if c < 0x80 then 1 else if c < 0x800 then 2 else if c < 0x10000 then 3 else 4

/-- The shortest form of a code point (R100). -/
def utf8Form (c : Nat) : List Byte := Utf8Seq.bytes { len := shortestLen c, value := c }

/-- The shortest UTF-8 form of a code-point sequence. -/
def utf8Forms (cps : List Nat) : List Byte := cps.flatMap utf8Form

/-! ### Type-7 text -/

/-- A byte sequence xored with the keystream of offset `o` (R170, R171). -/
def keystreamXor (k : KeyTable) (o : Nat) (bs : List Byte) : List Byte :=
  bs.mapIdx fun i b => b ^^^ (k.toList.getD ((o + i) % 54) 0).setWidth 8

/-- The upper-case hex digit of a value below 16 (R103). -/
def hexUnit (v : Nat) : CodeUnit := BitVec.ofNat 16 (if v < 10 then 0x30 + v else 0x37 + v)

/-- The text of a salt and a hash: two decimal digits, then two hex digits a byte (R102, R182). -/
def type7Text (o : Nat) (bs : List Byte) : List CodeUnit :=
  BitVec.ofNat 16 (0x30 + o / 10) :: BitVec.ofNat 16 (0x30 + o % 10) ::
    bs.flatMap fun b => [hexUnit (b.toNat / 16), hexUnit (b.toNat % 16)]

/-- A DIGIT of the grammar of R102. -/
abbrev IsDigit (u : CodeUnit) : Prop := 0x30 ≤ u.toNat ∧ u.toNat ≤ 0x39

/-- A HEX of the grammar of R102. -/
abbrev IsHex (u : CodeUnit) : Prop := IsDigit u ∨ (0x41 ≤ u.toNat ∧ u.toNat ≤ 0x46)

/-- The grammar of R102: `DIGIT DIGIT (HEX HEX)*`. -/
abbrev IsType7Text (t : List CodeUnit) : Prop :=
  2 ≤ t.length ∧ t.length % 2 = 0 ∧ (∀ u ∈ t.take 2, IsDigit u) ∧ ∀ u ∈ t.drop 2, IsHex u

/-! ### The error records of R210 -/

/-- The records the table of R210 allows: for each code its stage, the range of its index and its value. -/
def LegalError (e : ErrRecord) : Prop :=
  match e.code with
  | .e16LeadAfterLead => e.stage = .dec16 ∧ 1 ≤ e.index ∧ 0xD800 ≤ e.value.toNat ∧ e.value.toNat ≤ 0xDBFF
  | .e16TrailWithoutLead => e.stage = .dec16 ∧ 0xDC00 ≤ e.value.toNat ∧ e.value.toNat ≤ 0xDFFF
  | .e16NontrailAfterLead => e.stage = .dec16 ∧ 1 ≤ e.index ∧ e.value.toNat ≤ 0xFFFF ∧ ¬ IsSurrogate e.value.toNat
  | .e16DanglingLead => e.stage = .dec16 ∧ 1 ≤ e.index ∧ 0xD800 ≤ e.value.toNat ∧ e.value.toNat ≤ 0xDBFF
  | .ecpRange => (e.stage = .enc16 ∨ e.stage = .enc8) ∧ (e.value.toInt < 0 ∨ 0x10FFFF ≤ e.value.toInt)
  | .ecpSurrogate => e.stage = .enc16 ∧ IsSurrogate e.value.toNat
  | .e8LowMidSeq => e.stage = .dec8 ∧ 1 ≤ e.index ∧ e.value.toNat ≤ 0x7F
  | .e8ContWithoutLead => e.stage = .dec8 ∧ 0x80 ≤ e.value.toNat ∧ e.value.toNat ≤ 0xBF
  | .e8NewBeforeEnd => e.stage = .dec8 ∧ 1 ≤ e.index ∧ 0xC0 ≤ e.value.toNat ∧ e.value.toNat ≤ 0xF7
  | .e8InvalidLead => e.stage = .dec8 ∧ 0xF8 ≤ e.value.toNat ∧ e.value.toNat ≤ 0xFF
  | .e8Truncated => e.stage = .dec8 ∧ 1 ≤ e.index ∧ 1 ≤ e.value.toNat ∧ e.value.toNat ≤ 3
  | .e8Overlong => e.stage = .dec8 ∧ 1 ≤ e.index ∧ e.value.toNat ≤ 0xFFFF
  | .e7Parity => e.stage = .validate ∧ e.index % 2 = 1 ∧ (e.index < 2 ^ 31 → e.value.toNat = e.index)
  | .e7TooShort => e.stage = .validate ∧ e.index = 0 ∧ e.value = 0
  | .e7SaltDigit => e.stage = .validate ∧ e.index < 2 ∧ e.value.toNat ≤ 0xFFFF ∧ ¬ IsDigit (e.value.setWidth 16)
  | .e7HashDigit => e.stage = .validate ∧ 2 ≤ e.index ∧ e.value.toNat ≤ 0xFFFF ∧ ¬ IsHex (e.value.setWidth 16)
  | .e7Hex => False
  | .e7OffsetRange => e.stage = .arg ∧ e.index = 0 ∧ 100 ≤ e.value.toNat ∧ e.value.toNat ≤ 127
  | .eCapacity => e.stage = .none ∧ 1 ≤ e.index
  | .eIllegalOp => e.stage = .none ∧ e.index = 0 ∧ e.value.toNat ≤ 0xFFFF

/-- The responses the block writes: lanes of at most 21 bits (R35), or a record of R210. -/
def LegalResponse : Response → Prop
  | .ok out => ∀ l ∈ out, l.toNat ≤ 0x1FFFFF
  | .err e => LegalError e

/-- The invariant of the block between two steps: the response register holds a response of the spec, and no
working register of an earlier operation survives (R42). -/
def Inv (s : State) : Prop := LegalResponse s.resp ∧ s.work = Work.idle

end Sys2Proof.Safety
end

