-- ==== Sys2Proof/Certificates/Slice0/Obligations.lean ====
section
/-! DEFINITION. The statements for the provers, in the order of the spec's files. -/

open Sys2Proof Sys2Proof.Machine Sys2Proof.Safety

/-! ### The descriptor (30_encoding.md) -/

/-- Every well-formed operation, with every offset its field holds, is what the decoder reads from its descriptor
(R90, R91, R92). -/
def Obligations.EncodedOperationDecodesToItself : Prop :=
  ∀ i : Instr, WellFormed i = true → decode (encode i) = .ok i

/-- A descriptor the decoder accepts is the descriptor of a well-formed operation: no bit of it is ignored (R90 to
R96). -/
def Obligations.AcceptedDescriptorIsItsEncoding : Prop :=
  ∀ (c : Descriptor) (i : Instr), decode c = .ok i → WellFormed i = true ∧ encode i = c

/-- Descriptors written out from the table of R91 and the vectors of 95_test_vectors.md. -/
def Obligations.WrittenDescriptorsDecode : Prop :=
  decode 0x0001#16 = .ok .dec16 ∧ decode 0x0002#16 = .ok .enc16 ∧ decode 0x0003#16 = .ok .dec8 ∧
  decode 0x0004#16 = .ok .enc8 ∧ decode 0x0005#16 = .ok .t7dec ∧ decode 0x0036#16 = .ok (.t7enc 3) ∧
  decode 0x0636#16 = .ok (.t7enc 99) ∧ decode 0x0347#16 = .ok (.ksx 52) ∧ decode 0x07F7#16 = .ok (.ksx 127)

/-- R92: the offset operand of T7ENC and KSX is bits 10 to 4 of `CMD`, read as an unsigned integer in [0, 127]. -/
def Obligations.OffsetOperandIsZeroExtendedField : Prop :=
  ∀ c : Descriptor, c.toNat < 0x800 →
    (c.toNat % 16 = 6 → decode c = .ok (.t7enc (c.toNat / 16)) ∧ c.toNat / 16 ≤ 127) ∧
    (c.toNat % 16 = 7 → decode c = .ok (.ksx (c.toNat / 16)) ∧ c.toNat / 16 ≤ 127)

/-- R94, R95, R96: a request whose descriptor has a non-zero `RSV`, a reserved `OP`, or a non-zero `OFFSET` on an
operation without one fails with `E_ILLEGAL_OP` (stage NONE, index 0, value `CMD`) and performs nothing, whatever its
input. -/
def Obligations.IllegalDescriptorFailsWithIllegalOp : Prop :=
  ∀ s : State, s.activity = .inProgress →
    (0x800 ≤ s.cmd.toNat ∨ (s.cmd.toNat % 16 = 0 ∨ 8 ≤ s.cmd.toNat % 16) ∨
      (1 ≤ s.cmd.toNat % 16 ∧ s.cmd.toNat % 16 ≤ 5 ∧ s.cmd.toNat / 16 % 128 ≠ 0)) →
    step s = .next (answered s (.err
      ⟨.eIllegalOp, .none, 0, BitVec.ofNat 32 s.cmd.toNat⟩))

/-- R93: the checks in their order. `RSV` comes before `OP`, `OP` before `OFFSET`, all three before the capacity, and
an operation is performed exactly when every check passes. -/
def Obligations.DescriptorChecksRunInOrder : Prop :=
  ∀ c : Descriptor,
    (0x800 ≤ c.toNat → decode c = .error .reservedBits) ∧
    (c.toNat < 0x800 → (c.toNat % 16 = 0 ∨ 8 ≤ c.toNat % 16) → decode c = .error .reservedOp) ∧
    (c.toNat < 0x800 → 1 ≤ c.toNat % 16 → c.toNat % 16 ≤ 5 → c.toNat / 16 ≠ 0 →
      decode c = .error .offsetNotZero) ∧
    (c.toNat < 0x800 → 1 ≤ c.toNat % 16 → c.toNat % 16 ≤ 7 → (c.toNat % 16 ≤ 5 → c.toNat / 16 = 0) →
      ∃ i, decode c = .ok i) ∧
    ∀ s : State, s.activity = .inProgress → s.cmd = c →
      (∀ r, decode c = .error r → ∃ e : ErrRecord, e.code = .eIllegalOp ∧ e.stage = .none ∧ e.index = 0 ∧
        e.value = BitVec.ofNat 32 c.toNat ∧ step s = .next (answered s (.err e))) ∧
      ∀ i, decode c = .ok i →
        (Fits s → step s = exec i s) ∧
        (¬ Fits s → ∃ e : ErrRecord, e.code = .eCapacity ∧ step s = .next (answered s (.err e)))

/-- R97: every T7ENC descriptor with an offset of 100 to 127 is legal and its request fails with `E7_OFFSET_RANGE`;
every KSX descriptor with an offset of 0 to 127 is legal and its request is performed. -/
def Obligations.LargeOffsetsAreLegalEncodings : Prop :=
  ∀ (s : State) (o : Nat), s.activity = .inProgress → Fits s →
    (100 ≤ o → o ≤ 127 → s.cmd = BitVec.ofNat 16 (0x0006 + 16 * o) →
      ∃ e : ErrRecord, e.code = .e7OffsetRange ∧ step s = .next (answered s (.err e))) ∧
    (o ≤ 127 → s.cmd = BitVec.ofNat 16 (0x0007 + 16 * o) →
      ∃ out, step s = .next (answered s (.ok out)))

/-! ### Requests and steps (00_scope.md, 10_state.md, 20_memory.md, 70_reset_and_hazards.md) -/

/-- A step runs the decoded operation: with a request in progress whose descriptor decodes to `i` and whose input
fits, a step is `exec i` and adds nothing to it. -/
def Obligations.StepRunsTheDecodedOperation : Prop :=
  ∀ (s : State) (i : Instr), s.activity = .inProgress → decode s.cmd = .ok i → Fits s → step s = exec i s

/-- The idle block waits: a step without a request changes nothing. The spec says that the block waits (R242); that
waiting is a step that changes nothing is the model's choice (notes/assumptions/9.md). -/
def Obligations.IdleBlockWaits : Prop :=
  ∀ s : State, s.activity = .idle → step s = .next s

/-- R73: an input longer than `MAX_IN_LEN` fails with `E_CAPACITY`, index `n`, value `MAX_IN_LEN` (when the field can
hold it; notes/assumptions/5.md), and nothing else ever fails so: not with an unbounded `MAX_IN_LEN` or an input that
fits. -/
def Obligations.CapacityFailsExactlyOnLongInput : Prop :=
  ∀ (s : State) (i : Instr), s.activity = .inProgress → decode s.cmd = .ok i →
    (∀ m, s.params.maxInLen = some m → m < s.input.length →
      ∃ v : BitVec 32, (m < 2 ^ 31 → v.toNat = m) ∧
        step s = .next (answered s (.err ⟨.eCapacity, .none, s.input.length, v⟩))) ∧
    (∀ e : ErrRecord, step s = .next (answered s (.err e)) → e.code = .eCapacity →
      ∃ m, s.params.maxInLen = some m ∧ m < s.input.length)

/-- Every request gets one response in one step, whatever the descriptor and the input, and the step changes the
response, the activity and the working registers and nothing else (R4, R32, R33, R70, R217, R219). That no working
register survives is the spec's; the values the model leaves in them are its own (notes/assumptions/7.md). -/
def Obligations.EveryRequestIsAnsweredInOneStep : Prop :=
  ∀ s : State, s.activity = .inProgress → ∃ r : Response, step s = .next (answered s r)

/-- No operation writes the key table or another parameter, and the block never writes the request (R8, R31, R32,
R40): true of every run of steps, not of one. -/
def Obligations.ParametersAndRequestAreNeverWritten : Prop :=
  ∀ (k : Nat) (s t : State), Host.Core.run Sys2Proof.core k s = .next t →
    t.params = s.params ∧ t.cmd = s.cmd ∧ t.input = s.input

/-- R71, R42: the response is a function of `CMD`, `in` and the parameters. Two requests that agree on these get equal
responses, whatever the working and response registers of the two states hold. -/
def Obligations.ResponseDependsOnRequestAndParametersOnly : Prop :=
  ∀ s t : State, s.activity = .inProgress → t.activity = .inProgress →
    s.params = t.params → s.cmd = t.cmd → s.input = t.input →
    ∃ r : Response, step s = .next (answered s r) ∧ step t = .next (answered t r)

/-- R75: the order of two requests never changes either response. A request presented to the idle block is answered
the same before and after another request. -/
def Obligations.OrderOfRequestsChangesNoResponse : Prop :=
  ∀ (s s₁ s₂ t₁ t₂ : State) (c d : Descriptor) (a b : List Lane), s.activity = .idle →
    hostPresent c a s = .next s₁ → step s₁ = .next s₂ →
    hostPresent d b s₂ = .next t₁ → step t₁ = .next t₂ →
    ∃ u₁ u₂ : State, hostPresent d b s = .next u₁ ∧ step u₁ = .next u₂ ∧ u₂.resp = t₂.resp

/-- Every step keeps the invariant: the response register holds a response of the spec (a record of the table of
R210, or lanes of at most 21 bits, R35), `E7_HEX` never among them, and no working register survives (R42; the value
they are left at is the model's, notes/assumptions/7.md). -/
def Obligations.EveryStepKeepsTheInvariant : Prop :=
  ∀ s t : State, Inv s → step s = .next t → Inv t

/-- The invariant holds after reset. What the response and working registers hold there is the model's choice
(notes/assumptions/6.md, 7.md). -/
def Obligations.InvariantHoldsAfterReset : Prop := Inv State.reset

/-- R240, R243: after reset the block is idle; a reset keeps the key table and the other parameters; a host that
resets while it waits gets no response for that request, and must present it again. The default setting and the
response and working registers there are the model's choice (notes/assumptions/6.md, 7.md, 10.md, 14.md). -/
def Obligations.ResetLeavesTheBlockIdle : Prop :=
  State.reset.activity = .idle ∧ State.reset.params.fourByteMin = .x80 ∧
  ∀ s : State, (hostReset s).activity = .idle ∧ (hostReset s).params = s.params ∧
    (hostReset s).resp = State.reset.resp ∧ (hostReset s).work = State.reset.work ∧ hostRead (hostReset s) = none ∧
    ∀ (c : Descriptor) (a : List Lane),
      hostPresent c a (hostReset s) = .next { hostReset s with cmd := c, input := a, activity := .inProgress }

/-- R250, R251: while a request is in progress the host can neither present another nor change the request; when none
is, presenting one writes the request registers, and the response is read only after the request completes. The host's
functions and their faults are the model's form of these rules (notes/assumptions/14.md). -/
def Obligations.HostIsStuckWhileRequestInProgress : Prop :=
  ∀ (s : State) (c : Descriptor) (a : List Lane),
    (s.activity = .inProgress → hostPresent c a s = .fault .requestWhileBusy ∧
      hostChange c a s = .fault .requestChanged ∧ hostRead s = none) ∧
    (s.activity = .idle → ∃ r : Response,
      hostPresent c a s = .next { s with cmd := c, input := a, activity := .inProgress } ∧
      step { s with cmd := c, input := a, activity := .inProgress } =
        .next (answered { s with cmd := c, input := a, activity := .inProgress } r) ∧
      hostRead (answered { s with cmd := c, input := a, activity := .inProgress } r) = some r)

/-- R74: the output bounds of a successful operation; T7ENC's length is 2 + 2·b for the UTF-8 length b of its
plaintext, at most 3n. -/
def Obligations.OutputLengthIsBounded : Prop :=
  ∀ (s : State) (out : List Lane),
    (exec .dec16 s = .next (answered s (.ok out)) → out.length ≤ s.input.length) ∧
    (exec .enc16 s = .next (answered s (.ok out)) → out.length ≤ 2 * s.input.length) ∧
    (exec .dec8 s = .next (answered s (.ok out)) → out.length ≤ s.input.length) ∧
    (exec .enc8 s = .next (answered s (.ok out)) → out.length ≤ 4 * s.input.length) ∧
    (exec .t7dec s = .next (answered s (.ok out)) → out.length ≤ (s.input.length - 2) / 2) ∧
    ∀ o, (exec (.ksx o) s = .next (answered s (.ok out)) → out.length = s.input.length) ∧
      (exec (.t7enc o) s = .next (answered s (.ok out)) →
        ∃ cps : List Nat, (∀ c ∈ cps, Valid c) ∧ s.units = unitForms cps ∧
          (utf8Forms cps).length ≤ 3 * s.input.length ∧ out.length = 2 + 2 * (utf8Forms cps).length)

/-- R252: every operation ends within the element steps of the table. What counts as one step, and the T7DEC row's
`(n − 2)/2` as 0 for `n` < 2, are the model's reading (notes/assumptions/13.md). -/
def Obligations.ElementStepsAreBounded : Prop :=
  ∀ (i : Instr) (s : State), elementSteps i s ≤ stepBound i s.input.length

/-- R213: the index of an error record is never more than `n`, for every request the block fails. -/
def Obligations.ErrorIndexIsWithinInput : Prop :=
  ∀ (s : State) (e : ErrRecord), s.activity = .inProgress → step s = .next (answered s (.err e)) →
    e.index ≤ s.input.length

/-- R178: after VALIDATE has passed, every hash unit is a HEX and PARSE cannot fail, and no request is ever answered
with `E7_HEX`. -/
def Obligations.HexDecodingNeverFails : Prop :=
  (∀ (t : List CodeUnit) (w v : Work), validate t w = .ok v →
    (∀ u ∈ t.drop 2, IsHex u) ∧ ∃ u, parse t v = .ok u) ∧
  ∀ (s : State) (e : ErrRecord), s.activity = .inProgress → step s = .next (answered s (.err e)) →
    e.code ≠ .e7Hex

/-- R215, R218: errors are eager. When a codec operation fails at an element, every request that begins with the same
elements up to that one fails with the same record: no later element is read. -/
def Obligations.CodecErrorsReadNoLaterElement : Prop :=
  ∀ (s s' : State) (i : Instr) (e : ErrRecord),
    i = .dec16 ∨ i = .enc16 ∨ i = .dec8 ∨ i = .enc8 →
    exec i s = .next (answered s (.err e)) → e.index < s.input.length →
    s'.params = s.params → s'.input.take (e.index + 1) = s.input.take (e.index + 1) →
    exec i s' = .next (answered s' (.err e))

/-- R35: a lane of an operation's width goes through its container unchanged. The container is the model's
(notes/assumptions/4.md). -/
def Obligations.LanesKeepTheirValues : Prop :=
  ∀ (s : State) (us : List CodeUnit) (bs : List Byte),
    (s.input = us.map (fun u => BitVec.ofNat 32 u.toNat) → s.units = us) ∧
    (s.input = bs.map (fun b => BitVec.ofNat 32 b.toNat) → s.bytes = bs) ∧
    s.codePoints = s.input

/-! ### UTF-16 (40_utf16.md) -/

/-- DEC16 completes on every well-formed unit sequence: a sequence of units and pairs standing for `cps` is decoded to
`cps`, in order, 0x10FFFF included (R98, R120 to R124). -/
def Obligations.Dec16DecodesUnitsAndPairs : Prop :=
  ∀ (s : State) (cps : List Nat), (∀ c ∈ cps, HasUnits c) → s.units = unitForms cps →
    exec .dec16 s = .next (answered s (.ok (cps.map cpLane)))

/-- R125: DEC16 succeeds on nothing else. Every code point it writes is in [0, 0x10FFFF] and no surrogate, one at or
above 0x10000 for each pair and one below for each other unit, so `len(out)` is `n` less the number of pairs. -/
def Obligations.Dec16SucceedsOnlyOnUnitsAndPairs : Prop :=
  ∀ (s : State) (out : List Lane), exec .dec16 s = .next (answered s (.ok out)) →
    ∃ cps : List Nat, (∀ c ∈ cps, HasUnits c) ∧ s.units = unitForms cps ∧ out = cps.map cpLane ∧
      out.length = s.input.length - cps.countP (fun c => 0x10000 ≤ c) ∧ out.length ≤ s.input.length

/-- R129, with the records of R120 to R123: after any well-formed beginning, a lead followed by a lead, a lead
followed by a non-surrogate, a trail with no lead (an inverted pair among these), and a lead at the end each fail, at the index
and with the value the rules give. -/
def Obligations.Dec16RejectsUnpairedSurrogates : Prop :=
  ∀ (s : State) (cps : List Nat) (u v : CodeUnit) (rest : List CodeUnit), (∀ c ∈ cps, HasUnits c) →
    (IsLead u → IsLead v → s.units = unitForms cps ++ u :: v :: rest →
      exec .dec16 s = .next (answered s (.err
        ⟨.e16LeadAfterLead, .dec16, (unitForms cps).length + 1, BitVec.ofNat 32 v.toNat⟩))) ∧
    (IsLead u → ¬ IsSurrogate v.toNat → s.units = unitForms cps ++ u :: v :: rest →
      exec .dec16 s = .next (answered s (.err
        ⟨.e16NontrailAfterLead, .dec16, (unitForms cps).length + 1, BitVec.ofNat 32 v.toNat⟩))) ∧
    (IsTrail u → s.units = unitForms cps ++ u :: rest →
      exec .dec16 s = .next (answered s (.err
        ⟨.e16TrailWithoutLead, .dec16, (unitForms cps).length, BitVec.ofNat 32 u.toNat⟩))) ∧
    (IsLead u → s.units = unitForms cps ++ [u] →
      exec .dec16 s = .next (answered s (.err
        ⟨.e16DanglingLead, .dec16, s.input.length, BitVec.ofNat 32 u.toNat⟩)))

/-- R126: ENC16 writes the unit or the pair of every valid code point; the first code point that is negative or at
least 0x10FFFF fails with `ECP_RANGE`, the first surrogate with `ECP_SURROGATE`, at its index and with its value. -/
def Obligations.Enc16EncodesOrRejectsCodePoints : Prop :=
  ∀ (s : State) (cps : List Nat), (∀ c ∈ cps, Valid c) →
    (s.input = cps.map cpLane →
      exec .enc16 s = .next (answered s (.ok (unitLanes (unitForms cps))))) ∧
    ∀ (bad : CodePoint) (rest : List CodePoint), s.input = cps.map cpLane ++ bad :: rest →
      ((bad.toInt < 0 ∨ 0x10FFFF ≤ bad.toInt) →
        exec .enc16 s = .next (answered s (.err ⟨.ecpRange, .enc16, cps.length, bad⟩))) ∧
      (0xD800 ≤ bad.toInt ∧ bad.toInt ≤ 0xDFFF →
        exec .enc16 s = .next (answered s (.err ⟨.ecpSurrogate, .enc16, cps.length, bad⟩)))

/-- R127: for all valid code-point sequences, and these are the ones ENC16 succeeds on, decodeUtf16 of encodeUtf16
gives the sequence back. -/
def Obligations.Utf16RoundTrip : Prop :=
  ∀ s : State,
    ((∃ cps : List Nat, (∀ c ∈ cps, Valid c) ∧ s.input = cps.map cpLane) ↔
      ∃ out, exec .enc16 s = .next (answered s (.ok out))) ∧
    ∀ (out : List Lane) (s' : State), exec .enc16 s = .next (answered s (.ok out)) → s'.input = out →
      exec .dec16 s' = .next (answered s' (.ok s.input))

/-- R128: the converse round trip. ENC16 of what DEC16 made of a unit sequence is that sequence, unless a pair forms
0x10FFFF; DEC16 writes 0x10FFFF for (0xDBFF, 0xDFFF), and ENC16 rejects it. -/
def Obligations.Utf16ConverseRoundTrip : Prop :=
  (∀ (s s' : State) (out : List Lane), exec .dec16 s = .next (answered s (.ok out)) → s'.input = out →
    (0x10FFFF#32 ∉ out →
      exec .enc16 s' = .next (answered s' (.ok (unitLanes s.units)))) ∧
    (0x10FFFF#32 ∈ out → ∃ e : ErrRecord, e.code = .ecpRange ∧ exec .enc16 s' = .next (answered s' (.err e)))) ∧
  ∀ s : State, s.units = [0xDBFF#16, 0xDFFF#16] → exec .dec16 s = .next (answered s (.ok [0x10FFFF#32]))

/-! ### UTF-8 (41_utf8.md) -/

/-- DEC8 completes on every sequence of complete byte sequences that pass the shortest-encoding test, surrogates,
values above 0x10FFFF and the preserved 4-byte gap included, and writes their values in order (R140 to R146). -/
def Obligations.Dec8DecodesAcceptedSequences : Prop :=
  ∀ (s : State) (qs : List Utf8Seq), (∀ q ∈ qs, q.Accepted s.params.fourByteMin) →
    s.bytes = seqBytes qs →
    exec .dec8 s = .next (answered s (.ok (qs.map fun q => cpLane q.value)))

/-- R149: DEC8 succeeds on nothing else. Each code point it writes comes from exactly one complete sequence of 1 to 4
bytes whose value is in the range the setting of `FOUR_BYTE_MIN` leaves that length. -/
def Obligations.Dec8SucceedsOnlyOnAcceptedSequences : Prop :=
  ∀ (s : State) (out : List Lane), exec .dec8 s = .next (answered s (.ok out)) →
    ∃ qs : List Utf8Seq, (∀ q ∈ qs, q.Accepted s.params.fourByteMin) ∧ s.bytes = seqBytes qs ∧
      out = qs.map (fun q => cpLane q.value) ∧ out.length ≤ s.input.length

/-- R140, R141, R144, R145: the byte that breaks a well-formed beginning. With no sequence in progress, a continuation
byte and an invalid byte fail; inside a sequence, a low byte, a new lead and an invalid byte fail; each at its own
index and with its own value. -/
def Obligations.Dec8RejectsMisplacedBytes : Prop :=
  ∀ (s : State) (qs : List Utf8Seq) (b : Byte) (rest : List Byte), (∀ p ∈ qs, p.Accepted s.params.fourByteMin) →
    (s.bytes = seqBytes qs ++ b :: rest →
      (0x80 ≤ b.toNat ∧ b.toNat ≤ 0xBF → exec .dec8 s = .next (answered s (.err
        ⟨.e8ContWithoutLead, .dec8, (seqBytes qs).length, BitVec.ofNat 32 b.toNat⟩))) ∧
      (0xF8 ≤ b.toNat → exec .dec8 s = .next (answered s (.err
        ⟨.e8InvalidLead, .dec8, (seqBytes qs).length, BitVec.ofNat 32 b.toNat⟩)))) ∧
    ∀ (q : Utf8Seq) (j : Nat), q.Fits → 0 < j → j < q.len →
      s.bytes = seqBytes qs ++ q.bytes.take j ++ b :: rest →
      (b.toNat ≤ 0x7F → exec .dec8 s = .next (answered s (.err
        ⟨.e8LowMidSeq, .dec8, (seqBytes qs).length + j, BitVec.ofNat 32 b.toNat⟩))) ∧
      (0xC0 ≤ b.toNat ∧ b.toNat ≤ 0xF7 → exec .dec8 s = .next (answered s (.err
        ⟨.e8NewBeforeEnd, .dec8, (seqBytes qs).length + j, BitVec.ofNat 32 b.toNat⟩))) ∧
      (0xF8 ≤ b.toNat → exec .dec8 s = .next (answered s (.err
        ⟨.e8InvalidLead, .dec8, (seqBytes qs).length + j, BitVec.ofNat 32 b.toNat⟩)))

/-- R142, R143: a complete sequence whose value is below the least its length may hold fails with `E8_OVERLONG` at its
last byte, with the decoded value, under every setting of `FOUR_BYTE_MIN`. -/
def Obligations.Dec8RejectsOverlongSequences : Prop :=
  ∀ (s : State) (qs : List Utf8Seq) (q : Utf8Seq) (rest : List Byte),
    (∀ p ∈ qs, p.Accepted s.params.fourByteMin) → q.Fits → q.value < seqLeast s.params.fourByteMin q.len →
    s.bytes = seqBytes qs ++ q.bytes ++ rest →
    exec .dec8 s = .next (answered s (.err
      ⟨.e8Overlong, .dec8, (seqBytes qs).length + (q.len - 1), BitVec.ofNat 32 q.value⟩))

/-- R145: input that ends inside a sequence fails with `E8_TRUNCATED` at index `n`, with the number of continuation
bytes still expected. -/
def Obligations.Dec8RejectsTruncatedSequence : Prop :=
  ∀ (s : State) (qs : List Utf8Seq) (q : Utf8Seq) (j : Nat),
    (∀ p ∈ qs, p.Accepted s.params.fourByteMin) → q.Fits → 0 < j → j < q.len →
    s.bytes = seqBytes qs ++ q.bytes.take j →
    exec .dec8 s = .next (answered s (.err ⟨.e8Truncated, .dec8, s.input.length, BitVec.ofNat 32 (q.len - j)⟩))

/-- R148: the overlong 2-, 3- and 4-byte encodings of NUL fail with `E8_OVERLONG`, value 0, at index 1, 2 and 3, for
every value of `FOUR_BYTE_MIN`. -/
def Obligations.OverlongNulIsRejected : Prop :=
  ∀ s : State,
    (s.bytes = [0xC0#8, 0x80#8] → exec .dec8 s = .next (answered s (.err
      ⟨.e8Overlong, .dec8, 1, 0#32⟩))) ∧
    (s.bytes = [0xE0#8, 0x80#8, 0x80#8] → exec .dec8 s = .next (answered s (.err
      ⟨.e8Overlong, .dec8, 2, 0#32⟩))) ∧
    (s.bytes = [0xF0#8, 0x80#8, 0x80#8, 0x80#8] → exec .dec8 s = .next (answered s (.err
      ⟨.e8Overlong, .dec8, 3, 0#32⟩)))

/-- R150: ENC8 writes the shortest form of every code point in [0, 0x10FFFF), surrogates included; the first code
point outside fails with `ECP_RANGE` at its index and with its value. -/
def Obligations.Enc8EncodesOrRejectsCodePoints : Prop :=
  ∀ (s : State) (cps : List Nat), (∀ c ∈ cps, c < 0x10FFFF) →
    (s.input = cps.map cpLane →
      exec .enc8 s = .next (answered s (.ok (byteLanes (utf8Forms cps))))) ∧
    ∀ (bad : CodePoint) (rest : List CodePoint), s.input = cps.map cpLane ++ bad :: rest →
      (bad.toInt < 0 ∨ 0x10FFFF ≤ bad.toInt) →
      exec .enc8 s = .next (answered s (.err ⟨.ecpRange, .enc8, cps.length, bad⟩))

/-- R151: for all valid code-point sequences, surrogates included, and every setting of `FOUR_BYTE_MIN`, decodeUtf8 of
encodeUtf8 gives the sequence back. -/
def Obligations.Utf8RoundTrip : Prop :=
  ∀ (s : State) (cps : List Nat), (∀ c ∈ cps, c < 0x10FFFF) → s.input = cps.map cpLane →
    ∃ out, exec .enc8 s = .next (answered s (.ok out)) ∧
      ∀ s' : State, s'.input = out → exec .dec8 s' = .next (answered s' (.ok s.input))

/-- R152: ENC8 of what a successful DEC16 wrote never contains the encoding of a surrogate (a byte 0xED followed by a
byte of 0xA0 or more). -/
def Obligations.Enc8AfterDec16HasNoSurrogate : Prop :=
  ∀ (s s' : State) (out bs : List Lane), exec .dec16 s = .next (answered s (.ok out)) → s'.input = out →
    exec .enc8 s' = .next (answered s' (.ok bs)) →
    ∀ l r : List Lane, ∀ b : Lane, bs = l ++ 0xED#32 :: b :: r → b.toNat < 0xA0

/-! ### Type-7 (42_type7.md) -/

/-- R170, R171, R172: KSX completes for every offset and every input, and writes
`in[i] XOR K((o + i) mod 54)` for each position. -/
def Obligations.KsxXorsTheKeystream : Prop :=
  ∀ (s : State) (o : Nat),
    exec (.ksx o) s = .next (answered s (.ok
      (byteLanes (keystreamXor s.params.keyTable o s.bytes))))

/-- R173: KSX applied twice with the same offset recovers the original bytes. -/
def Obligations.KsxIsAnInvolution : Prop :=
  ∀ (s : State) (o : Nat), ∃ out, exec (.ksx o) s = .next (answered s (.ok out)) ∧
    ∀ s' : State, s'.params.keyTable = s.params.keyTable → s'.input = out →
      exec (.ksx o) s' = .next (answered s' (.ok (byteLanes s.bytes)))

/-- The corner cases of R172: offsets 54 apart give the same output, and bit 7 of every byte passes unchanged, since
every key byte is an ASCII code. -/
def Obligations.KsxPeriodAndHighBit : Prop :=
  ∀ (s : State) (o : Nat), exec (.ksx (o + 54)) s = exec (.ksx o) s ∧
    ∃ out, exec (.ksx o) s = .next (answered s (.ok out)) ∧
      out.map (fun l => l.getLsbD 7) = s.bytes.map (fun b => b.getLsbD 7)

/-- R176: the VALIDATE checks in their priority order (parity, length, salt digits, hash digits, the lowest offending
index within the salt and within the hash), each with the index and value of its rule; the value of a length of 2³¹
or more is left open (notes/assumptions/5.md). -/
def Obligations.T7decReportsFormatErrorsInOrder : Prop :=
  ∀ (s : State),
    (s.input.length % 2 = 1 → ∃ v : BitVec 32, (s.input.length < 2 ^ 31 → v.toNat = s.input.length) ∧
      exec .t7dec s = .next (answered s (.err ⟨.e7Parity, .validate, s.input.length, v⟩))) ∧
    (s.input = [] → exec .t7dec s = .next (answered s (.err ⟨.e7TooShort, .validate, 0, 0#32⟩))) ∧
    ∀ (good : List CodeUnit) (bad : CodeUnit) (rest : List CodeUnit), s.units = good ++ bad :: rest →
      s.input.length % 2 = 0 →
      (good.length < 2 → (∀ u ∈ good, IsDigit u) → ¬ IsDigit bad →
        exec .t7dec s = .next (answered s (.err
          ⟨.e7SaltDigit, .validate, good.length, BitVec.ofNat 32 bad.toNat⟩))) ∧
      (2 ≤ good.length → (∀ u ∈ good.take 2, IsDigit u) → (∀ u ∈ good.drop 2, IsHex u) → ¬ IsHex bad →
        exec .t7dec s = .next (answered s (.err
          ⟨.e7HashDigit, .validate, good.length, BitVec.ofNat 32 bad.toNat⟩)))

/-- T7DEC completes: a text whose salt is `o` and whose hash is the encryption of the accepted UTF-8 sequences of
valid code points decodes to their units (R175 to R177, R180). -/
def Obligations.T7decDecodesEncryptedText : Prop :=
  ∀ (s : State) (o : Nat) (qs : List Utf8Seq), o ≤ 99 →
    (∀ q ∈ qs, q.Accepted s.params.fourByteMin ∧ Valid q.value) →
    s.units = type7Text o (keystreamXor s.params.keyTable o (seqBytes qs)) →
    exec .t7dec s = .next (answered s (.ok
      (unitLanes (unitForms (qs.map Utf8Seq.value)))))

/-- R175, R179, R180: T7DEC of a type-7 text is KSX, then DEC8, then ENC16, on the salt and hash of the text: its
response is the error of DEC8 on the decrypted bytes, or else whatever ENC16 answers to DEC8's output, the stage, the
index and the value of the record unchanged. -/
def Obligations.T7decIsItsStagesComposed : Prop :=
  ∀ (s s₁ s₂ : State) (o : Nat) (c : List Byte) (r₁ r₂ : Response), o ≤ 99 → s.units = type7Text o c →
    s₁.params = s.params → s₁.bytes = keystreamXor s.params.keyTable o c →
    exec .dec8 s₁ = .next (answered s₁ r₁) →
    (∀ e, r₁ = .err e → exec .t7dec s = .next (answered s (.err e))) ∧
    (∀ cps, r₁ = .ok cps → s₂.input = cps → exec .enc16 s₂ = .next (answered s₂ r₂) →
      exec .t7dec s = .next (answered s r₂))

/-- T7ENC completes: with an offset of at most 99 and units standing for valid code points, it writes the salt and the
encryption of their shortest UTF-8 forms (R181 to R184). -/
def Obligations.T7encEncryptsUtf8Text : Prop :=
  ∀ (s : State) (o : Nat) (cps : List Nat), o ≤ 99 → (∀ c ∈ cps, Valid c) → s.units = unitForms cps →
    exec (.t7enc o) s = .next (answered s (.ok
      (unitLanes (type7Text o (keystreamXor s.params.keyTable o (utf8Forms cps))))))

/-- R181, R184: T7ENC with an offset of at most 99 is DEC16, then ENC8, then KSX, then FORMAT: its response is the
error of DEC16, or the error of ENC8 on DEC16's output, or the text of the encryption of ENC8's output. -/
def Obligations.T7encIsItsStagesComposed : Prop :=
  ∀ (s s₁ s₂ : State) (o : Nat) (r₁ r₂ : Response), o ≤ 99 → s₁.input = s.input →
    exec .dec16 s₁ = .next (answered s₁ r₁) →
    (∀ e, r₁ = .err e → exec (.t7enc o) s = .next (answered s (.err e))) ∧
    (∀ cps, r₁ = .ok cps → s₂.input = cps → exec .enc8 s₂ = .next (answered s₂ r₂) →
      (∀ e, r₂ = .err e → exec (.t7enc o) s = .next (answered s (.err e))) ∧
      (∀ bs : List Byte, r₂ = .ok (byteLanes bs) →
        exec (.t7enc o) s = .next (answered s (.ok
          (unitLanes (type7Text o (keystreamXor s.params.keyTable o bs)))))))

/-- R183: T7ENC with an offset of 100 to 127 fails with `E7_OFFSET_RANGE`, stage ARG, index 0, value the offset,
whatever the input. -/
def Obligations.T7encRejectsOffsetAbove99 : Prop :=
  ∀ (s : State) (o : Nat), 99 < o → o ≤ 127 →
    exec (.t7enc o) s = .next (answered s (.err ⟨.e7OffsetRange, .arg, 0, BitVec.ofNat 32 o⟩))

/-- R186: a T7ENC request that passes the port checks succeeds exactly when the offset is at most 99 and the plaintext
is well-formed UTF-16 without the pair (0xDBFF, 0xDFFF). -/
def Obligations.T7encSucceedsExactlyOnEncodableText : Prop :=
  ∀ (s : State) (o : Nat), s.activity = .inProgress → decode s.cmd = .ok (.t7enc o) → Fits s →
    ((∃ out, step s = .next (answered s (.ok out))) ↔
      o ≤ 99 ∧ ∃ cps : List Nat, (∀ c ∈ cps, HasUnits c) ∧ s.units = unitForms cps ∧ 0x10FFFF ∉ cps)

/-- R182: the output of T7ENC is type-7 text by the grammar of R102, and its first two digits are the offset,
unreduced (R174). -/
def Obligations.T7encOutputIsType7Text : Prop :=
  ∀ (s : State) (o : Nat) (out : List Lane), exec (.t7enc o) s = .next (answered s (.ok out)) →
    IsType7Text (out.map laneUnit) ∧
    ∃ t u rest, out = t :: u :: rest ∧ 10 * (t.toNat - 0x30) + (u.toNat - 0x30) = o

/-- R174: a salt of 54 to 99 acts as its value mod 54 in the keystream and is written unreduced: the hashes of T7ENC
with offsets 54 apart are equal, and each text carries its own salt. -/
def Obligations.SaltActsModuloTableLength : Prop :=
  ∀ (s : State) (o : Nat) (a b : List Lane), o + 54 ≤ 99 →
    exec (.t7enc o) s = .next (answered s (.ok a)) → exec (.t7enc (o + 54)) s = .next (answered s (.ok b)) →
    a.drop 2 = b.drop 2 ∧ a.take 2 ≠ b.take 2

/-- R185: the cipher round trip. For every plaintext on which T7ENC succeeds and every offset, T7DEC of the text is
the plaintext, under the same key table and whatever `FOUR_BYTE_MIN`. -/
def Obligations.CipherRoundTrip : Prop :=
  ∀ (s s' : State) (o : Nat) (text : List Lane), exec (.t7enc o) s = .next (answered s (.ok text)) →
    s'.params.keyTable = s.params.keyTable → s'.input = text →
    exec .t7dec s' = .next (answered s' (.ok (unitLanes s.units)))

/-! ### Error codes and the response after reset (60_exceptions.md, 10_state.md, 70_reset_and_hazards.md) -/

/-- R210, R213, R214: the condition and the stage of a record are told apart by their 8-bit and 4-bit numbers, and the
codes and stage values the spec leaves unassigned are the numbers of none. -/
def Obligations.CodesAndStagesAreDistinct : Prop :=
  (∀ a b : ErrCode, a.code = b.code → a = b) ∧ (∀ a b : Stage, a.tag = b.tag → a = b) ∧
  (∀ a : ErrCode, a.code ≠ 0x00#8 ∧ a.code ≠ 0x07#8 ∧ a.code ≠ 0x0E#8 ∧ a.code ≠ 0x0F#8 ∧
    ¬ (0x16 ≤ a.code.toNat ∧ a.code.toNat ≤ 0x1D) ∧ a.code.toNat < 0x20) ∧
  ∀ a : Stage, a.tag.toNat ≤ 9

/-- R38, R43, R240, R243: after a reset, of an idle block or of one with a request in progress, the host reads no
response before a later request completes. No step of the waiting block brings one (a waiting step is the model's,
notes/assumptions/9.md); a request presented then is answered by the next step, and the response read is that answer. -/
def Obligations.NoResponseBeforeARequestCompletes : Prop :=
  hostRead State.reset = none ∧
  ∀ s : State,
    (∀ (k : Nat) (t : State), Host.Core.run Sys2Proof.core k (hostReset s) = .next t → hostRead t = none) ∧
    ∀ (c : Descriptor) (a : List Lane) (t : State), hostPresent c a (hostReset s) = .next t →
      hostRead t = none ∧
      ∃ r : Response, step t = .next (answered t r) ∧ hostRead (answered t r) = some r
end

