-- ==== Sys2Proof/Laws/Operands.lean ====
section
/-! SUPPORT. What the operand forms say, in plain arithmetic: lanes, classes, the forms of a code point, digits. -/

namespace Sys2Proof.Machine

open Sys2Proof.Safety

/-! ### Lanes -/

@[simp] theorem laneUnit_unitLane (u : CodeUnit) : laneUnit (unitLane u) = u := by
  apply BitVec.eq_of_toNat_eq
  simp [laneUnit, unitLane]

@[simp] theorem laneByte_byteLane (b : Byte) : laneByte (byteLane b) = b := by
  apply BitVec.eq_of_toNat_eq
  simp [laneByte, byteLane]

theorem unitLane_eq (u : CodeUnit) : unitLane u = BitVec.ofNat 32 u.toNat := by
  apply BitVec.eq_of_toNat_eq
  simp [unitLane]

theorem byteLane_eq (b : Byte) : byteLane b = BitVec.ofNat 32 b.toNat := by
  apply BitVec.eq_of_toNat_eq
  simp [byteLane]

@[simp] theorem map_laneUnit_unitLane (us : List CodeUnit) : (us.map unitLane).map laneUnit = us := by
  simp [Function.comp_def]

@[simp] theorem map_laneByte_byteLane (bs : List Byte) : (bs.map byteLane).map laneByte = bs := by
  simp [Function.comp_def]

theorem unitLanes_eq (us : List CodeUnit) : unitLanes us = us.map unitLane := by
  simp [unitLanes, unitLane_eq]

theorem byteLanes_eq (bs : List Byte) : byteLanes bs = bs.map byteLane := by
  simp [byteLanes, byteLane_eq]

theorem units_length (s : State) : s.units.length = s.n := by simp [State.units, State.n]

theorem bytes_length (s : State) : s.bytes.length = s.n := by simp [State.bytes, State.n]

theorem codePoints_length (s : State) : s.codePoints.length = s.n := rfl

/-! ### UTF-16 -/

theorem unitClass_eq_lead {u : CodeUnit} : unitClass u = .lead ↔ IsLead u := by
  unfold unitClass IsLead
  split
  · simp; omega
  · split <;> simp <;> omega

theorem unitClass_eq_trail {u : CodeUnit} : unitClass u = .trail ↔ IsTrail u := by
  unfold unitClass IsTrail
  split
  · simp; omega
  · split <;> simp <;> omega

theorem unitClass_eq_nonSurrogate {u : CodeUnit} : unitClass u = .nonSurrogate ↔ ¬ IsSurrogate u.toNat := by
  unfold unitClass IsSurrogate
  split
  · simp; omega
  · split <;> simp <;> omega

theorem pendingOf_toNat {u : CodeUnit} (h : IsLead u) : (pendingOf u).toNat = (u.toNat - 0xD800) * 0x400 := by
  obtain ⟨h1, h2⟩ := h
  simp only [pendingOf, BitVec.toNat_shiftLeft, BitVec.toNat_setWidth, BitVec.toNat_sub, BitVec.toNat_ofNat,
    Nat.shiftLeft_eq]
  omega

/-- R98: a lead and a trail stand for 0x10000 + ((lead − 0xD800) << 10) + (trail − 0xDC00). -/
theorem pairCodePoint_toNat {u v : CodeUnit} (hu : IsLead u) (hv : IsTrail v) :
    (pairCodePoint (pendingOf u) v).toNat = 0x10000 + (u.toNat - 0xD800) * 0x400 + (v.toNat - 0xDC00) := by
  have hp := pendingOf_toNat hu
  obtain ⟨h1, h2⟩ := hu
  obtain ⟨h3, h4⟩ := hv
  simp only [pairCodePoint, BitVec.toNat_add, BitVec.toNat_setWidth, BitVec.toNat_sub, BitVec.toNat_ofNat, hp]
  omega

/-- R123: the pending value remembers its lead. -/
theorem leadOfPending_pendingOf {u : CodeUnit} (h : IsLead u) : leadOfPending (pendingOf u) = u := by
  have hp := pendingOf_toNat h
  obtain ⟨h1, h2⟩ := h
  apply BitVec.eq_of_toNat_eq
  simp only [leadOfPending, BitVec.toNat_add, BitVec.toNat_setWidth, BitVec.toNat_ushiftRight, BitVec.toNat_ofNat, hp,
    Nat.shiftRight_eq_div_pow]
  omega

/-- A unit that is no surrogate is the form of its own value. -/
theorem unitForm_of_nonSurrogate {u : CodeUnit} : unitForm u.toNat = [u] := by
  have := u.isLt
  simp only [unitForm]
  rw [if_pos (by omega)]
  simp

/-- A lead and a trail are the form of the code point they stand for. -/
theorem unitForm_of_pair {u v : CodeUnit} (hu : IsLead u) (hv : IsTrail v) :
    unitForm (0x10000 + (u.toNat - 0xD800) * 0x400 + (v.toNat - 0xDC00)) = [u, v] := by
  obtain ⟨h1, h2⟩ := hu
  obtain ⟨h3, h4⟩ := hv
  have e1 : 0xD800 + (0x10000 + (u.toNat - 0xD800) * 0x400 + (v.toNat - 0xDC00) - 0x10000) / 0x400 = u.toNat := by omega
  have e2 : 0xDC00 + (0x10000 + (u.toNat - 0xD800) * 0x400 + (v.toNat - 0xDC00) - 0x10000) % 0x400 = v.toNat := by omega
  rw [unitForm, if_neg (by omega), e1, e2]
  simp

/-- The form of a supplementary code point is a lead and a trail that stand for it. -/
theorem unitForm_supplementary {c : Nat} (h1 : 0x10000 ≤ c) (h2 : c ≤ 0x10FFFF) :
    ∃ u v : CodeUnit, unitForm c = [u, v] ∧ IsLead u ∧ IsTrail v ∧
      c = 0x10000 + (u.toNat - 0xD800) * 0x400 + (v.toNat - 0xDC00) := by
  refine ⟨_, _, by rw [unitForm, if_neg (by omega)], ?_⟩
  simp only [IsLead, IsTrail, BitVec.toNat_ofNat]
  omega

/-! ### Code points -/

theorem cpLane_toNat {c : Nat} (h : c < 2 ^ 32) : (cpLane c).toNat = c := by simp [cpLane]; omega

theorem cpLane_toInt {c : Nat} (h : c < 2 ^ 31) : (cpLane c).toInt = c := by
  have := cpLane_toNat (show c < 2 ^ 32 by omega)
  rw [BitVec.toInt_eq_toNat_cond, this]
  omega

theorem cpLane_toNat_self (l : Lane) : cpLane l.toNat = l := by simp [cpLane]

theorem codePointClass_eq_outOfRange {cp : CodePoint} :
    codePointClass cp = .outOfRange ↔ cp.toInt < 0 ∨ 0x10FFFF ≤ cp.toInt := by
  unfold codePointClass cpLimit
  split
  · simp_all
  · split <;> (try split) <;> simp <;> omega

theorem codePointClass_eq_surrogate {cp : CodePoint} :
    codePointClass cp = .surrogate ↔ 0xD800 ≤ cp.toInt ∧ cp.toInt ≤ 0xDFFF := by
  unfold codePointClass cpLimit
  split
  · simp; omega
  · split <;> (try split) <;> simp <;> omega

theorem codePointClass_cpLane_basic {c : Nat} (h : c < 0x10000) (hs : ¬ IsSurrogate c) :
    codePointClass (cpLane c) = .basic := by
  have hi := cpLane_toInt (show c < 2 ^ 31 by omega)
  unfold codePointClass cpLimit
  rw [hi, if_neg (by omega), if_neg (by omega), if_pos (by omega)]

theorem codePointClass_cpLane_supplementary {c : Nat} (h : 0x10000 ≤ c) (h' : c < 0x10FFFF) :
    codePointClass (cpLane c) = .supplementary := by
  have hi := cpLane_toInt (show c < 2 ^ 31 by omega)
  unfold codePointClass cpLimit
  rw [hi, if_neg (by omega), if_neg (by omega), if_neg (by omega)]

theorem and_low_mask (n k : Nat) : n &&& (2 ^ k - 1) = n % 2 ^ k := by
  exact Nat.and_two_pow_sub_one_eq_mod n k

/-- R126: the lead and the trail of a supplementary code point are its form. -/
theorem leadOf_trailOf_cpLane {c : Nat} (h : 0x10000 ≤ c) (h' : c < 0x10FFFF) :
    [leadOf (cpLane c), trailOf (cpLane c)] = unitForm c := by
  have hn := cpLane_toNat (show c < 2 ^ 32 by omega)
  have hr : (cpLane c - 0x10000#32).toNat = c - 0x10000 := by
    rw [BitVec.toNat_sub, hn]; simp; omega
  rw [unitForm, if_neg (by omega)]
  have h1 : leadOf (cpLane c) = BitVec.ofNat 16 (0xD800 + (c - 0x10000) / 0x400) := by
    apply BitVec.eq_of_toNat_eq
    simp only [leadOf, BitVec.toNat_add, BitVec.toNat_setWidth, BitVec.toNat_and, BitVec.toNat_ushiftRight,
      BitVec.toNat_ofNat, hr, Nat.shiftRight_eq_div_pow]
    rw [show 0x3FF % 2 ^ 32 = 2 ^ 10 - 1 by rfl, and_low_mask]
    omega
  have h2 : trailOf (cpLane c) = BitVec.ofNat 16 (0xDC00 + (c - 0x10000) % 0x400) := by
    apply BitVec.eq_of_toNat_eq
    simp only [trailOf, BitVec.toNat_add, BitVec.toNat_setWidth, BitVec.toNat_and, BitVec.toNat_ofNat, hr]
    rw [show 0x3FF % 2 ^ 32 = 2 ^ 10 - 1 by rfl, and_low_mask]
    omega
  rw [h1, h2]

end Sys2Proof.Machine
end

