-- ==== Sys2Proof/Laws/State.lean ====
section
/-! SUPPORT. One lemma per field per update of the state and of the working registers, all true by rfl. -/

namespace Sys2Proof.Machine

/-! ### The two ends of a request -/

@[simp] theorem State.succeed_params (s : State) (out : List Lane) : (s.succeed out).params = s.params := rfl
@[simp] theorem State.succeed_cmd (s : State) (out : List Lane) : (s.succeed out).cmd = s.cmd := rfl
@[simp] theorem State.succeed_input (s : State) (out : List Lane) : (s.succeed out).input = s.input := rfl
@[simp] theorem State.succeed_activity (s : State) (out : List Lane) : (s.succeed out).activity = .idle := rfl
@[simp] theorem State.succeed_resp (s : State) (out : List Lane) : (s.succeed out).resp = .ok out := rfl
@[simp] theorem State.succeed_responded (s : State) (out : List Lane) : (s.succeed out).responded = true := rfl
@[simp] theorem State.succeed_work (s : State) (out : List Lane) : (s.succeed out).work = Work.idle := rfl
@[simp] theorem State.succeed_n (s : State) (out : List Lane) : (s.succeed out).n = s.n := rfl
@[simp] theorem State.succeed_units (s : State) (out : List Lane) : (s.succeed out).units = s.units := rfl
@[simp] theorem State.succeed_bytes (s : State) (out : List Lane) : (s.succeed out).bytes = s.bytes := rfl
@[simp] theorem State.succeed_codePoints (s : State) (out : List Lane) : (s.succeed out).codePoints = s.codePoints := rfl
@[simp] theorem State.fail_params (s : State) (e : ErrRecord) : (s.fail e).params = s.params := rfl
@[simp] theorem State.fail_cmd (s : State) (e : ErrRecord) : (s.fail e).cmd = s.cmd := rfl
@[simp] theorem State.fail_input (s : State) (e : ErrRecord) : (s.fail e).input = s.input := rfl
@[simp] theorem State.fail_activity (s : State) (e : ErrRecord) : (s.fail e).activity = .idle := rfl
@[simp] theorem State.fail_resp (s : State) (e : ErrRecord) : (s.fail e).resp = .err e := rfl
@[simp] theorem State.fail_responded (s : State) (e : ErrRecord) : (s.fail e).responded = true := rfl
@[simp] theorem State.fail_work (s : State) (e : ErrRecord) : (s.fail e).work = Work.idle := rfl
@[simp] theorem State.fail_n (s : State) (e : ErrRecord) : (s.fail e).n = s.n := rfl
@[simp] theorem State.fail_units (s : State) (e : ErrRecord) : (s.fail e).units = s.units := rfl
@[simp] theorem State.fail_bytes (s : State) (e : ErrRecord) : (s.fail e).bytes = s.bytes := rfl
@[simp] theorem State.fail_codePoints (s : State) (e : ErrRecord) : (s.fail e).codePoints = s.codePoints := rfl

/-! ### The working registers -/

@[simp] theorem enter_i (st : Stage) (w : Work) : (enter st w).i = 0 := rfl
@[simp] theorem enter_out (st : Stage) (w : Work) : (enter st w).out = [] := rfl
@[simp] theorem enter_pend (st : Stage) (w : Work) : (enter st w).pend = w.pend := rfl
@[simp] theorem enter_acc (st : Stage) (w : Work) : (enter st w).acc = w.acc := rfl
@[simp] theorem enter_rem (st : Stage) (w : Work) : (enter st w).rem = w.rem := rfl
@[simp] theorem enter_tot (st : Stage) (w : Work) : (enter st w).tot = w.tot := rfl
@[simp] theorem enter_stage (st : Stage) (w : Work) : (enter st w).stage = st := rfl
@[simp] theorem enter_salt (st : Stage) (w : Work) : (enter st w).salt = w.salt := rfl
@[simp] theorem enter_raw (st : Stage) (w : Work) : (enter st w).raw = w.raw := rfl
@[simp] theorem enter_ks (st : Stage) (w : Work) : (enter st w).ks = w.ks := rfl
@[simp] theorem enter_cps (st : Stage) (w : Work) : (enter st w).cps = w.cps := rfl
@[simp] theorem advance_i (w : Work) : (advance w).i = w.i + 1 := rfl
@[simp] theorem advance_out (w : Work) : (advance w).out = w.out := rfl
@[simp] theorem advance_pend (w : Work) : (advance w).pend = w.pend := rfl
@[simp] theorem advance_acc (w : Work) : (advance w).acc = w.acc := rfl
@[simp] theorem advance_rem (w : Work) : (advance w).rem = w.rem := rfl
@[simp] theorem advance_tot (w : Work) : (advance w).tot = w.tot := rfl
@[simp] theorem advance_stage (w : Work) : (advance w).stage = w.stage := rfl
@[simp] theorem advance_salt (w : Work) : (advance w).salt = w.salt := rfl
@[simp] theorem advance_raw (w : Work) : (advance w).raw = w.raw := rfl
@[simp] theorem advance_ks (w : Work) : (advance w).ks = w.ks := rfl
@[simp] theorem advance_cps (w : Work) : (advance w).cps = w.cps := rfl
@[simp] theorem emit_i (ls : List Lane) (w : Work) : (emit ls w).i = w.i := rfl
@[simp] theorem emit_out (ls : List Lane) (w : Work) : (emit ls w).out = w.out ++ ls := rfl
@[simp] theorem emit_pend (ls : List Lane) (w : Work) : (emit ls w).pend = w.pend := rfl
@[simp] theorem emit_acc (ls : List Lane) (w : Work) : (emit ls w).acc = w.acc := rfl
@[simp] theorem emit_rem (ls : List Lane) (w : Work) : (emit ls w).rem = w.rem := rfl
@[simp] theorem emit_tot (ls : List Lane) (w : Work) : (emit ls w).tot = w.tot := rfl
@[simp] theorem emit_stage (ls : List Lane) (w : Work) : (emit ls w).stage = w.stage := rfl
@[simp] theorem emit_salt (ls : List Lane) (w : Work) : (emit ls w).salt = w.salt := rfl
@[simp] theorem emit_raw (ls : List Lane) (w : Work) : (emit ls w).raw = w.raw := rfl
@[simp] theorem emit_ks (ls : List Lane) (w : Work) : (emit ls w).ks = w.ks := rfl
@[simp] theorem emit_cps (ls : List Lane) (w : Work) : (emit ls w).cps = w.cps := rfl

/-! ### The host's acts -/

@[simp] theorem hostReset_params (s : State) : (hostReset s).params = s.params := rfl
@[simp] theorem hostReset_activity (s : State) : (hostReset s).activity = .idle := rfl
@[simp] theorem hostReset_resp (s : State) : (hostReset s).resp = State.reset.resp := rfl
@[simp] theorem hostReset_responded (s : State) : (hostReset s).responded = false := rfl
@[simp] theorem hostReset_work (s : State) : (hostReset s).work = Work.idle := rfl
@[simp] theorem State.reset_activity : State.reset.activity = .idle := rfl
@[simp] theorem State.reset_responded : State.reset.responded = false := rfl
@[simp] theorem State.reset_input : State.reset.input = [] := rfl
@[simp] theorem State.reset_work : State.reset.work = Work.idle := rfl
@[simp] theorem State.reset_params : State.reset.params = Config.params := rfl

end Sys2Proof.Machine
end

