-- ==== Sys2Proof/Laws/Ops.lean ====
section
/-! SUPPORT. What each shared operation can do, said once: the loop, raising an error, the two ends of a request. -/

namespace Sys2Proof.Machine

/-! ### Raising an error -/

@[simp] theorem raise_eq (w : Work) (c : ErrCode) (k : Nat) (v : BitVec 32) :
    raise w c k v = .error ⟨c, w.stage, k, v⟩ := rfl

@[simp] theorem raiseHere_eq (w : Work) (c : ErrCode) (v : BitVec 32) :
    raiseHere w c v = .error ⟨c, w.stage, w.i, v⟩ := rfl

/-! ### The loop -/

variable {α : Type}

@[simp] theorem scan_nil (f : Work → α → Result) (w : Work) : scan f [] w = .ok w := rfl

theorem scan_cons (f : Work → α → Result) (a : α) (as : List α) (w : Work) :
    scan f (a :: as) w = (f w a).bind (scan f as) := by
  cases h : f w a <;> simp [scan, h, Except.bind]

theorem scan_cons_ok {f : Work → α → Result} {a : α} {as : List α} {w w' : Work} (h : f w a = .ok w') :
    scan f (a :: as) w = scan f as w' := by simp [scan, h]

theorem scan_cons_error {f : Work → α → Result} {a : α} {as : List α} {w : Work} {e : ErrRecord}
    (h : f w a = .error e) : scan f (a :: as) w = .error e := by simp [scan, h]

/-- A loop over two sequences is the loop over the first, then over the second. -/
theorem scan_append (f : Work → α → Result) (as bs : List α) (w : Work) :
    scan f (as ++ bs) w = (scan f as w).bind (scan f bs) := by
  induction as generalizing w with
  | nil => simp [Except.bind]
  | cons a as ih =>
    cases h : f w a with
    | ok w' => simp [scan_cons_ok h, ih]
    | error e => simp [scan_cons_error h, Except.bind]

theorem scan_append_ok {f : Work → α → Result} {as bs : List α} {w w' : Work} (h : scan f as w = .ok w') :
    scan f (as ++ bs) w = scan f bs w' := by simp [scan_append, h, Except.bind]

/-- What every element keeps, the loop keeps. -/
theorem scan_keeps {f : Work → α → Result} {P : Work → Prop} {as : List α}
    (hstep : ∀ a ∈ as, ∀ w w', P w → f w a = .ok w' → P w') {w w' : Work} (hw : P w) (h : scan f as w = .ok w') :
    P w' := by
  induction as generalizing w with
  | nil => simpa using (Except.ok.inj h) ▸ hw
  | cons a as ih =>
    cases ha : f w a with
    | ok v =>
      rw [scan_cons_ok ha] at h
      exact ih (fun b hb => hstep b (.tail _ hb)) (hstep a (.head _) w v hw ha) h
    | error e => simp [scan_cons_error ha] at h

/-- A loop fails at exactly one element: those before it passed, and it raised the error (R215). -/
theorem scan_error_iff {f : Work → α → Result} {as : List α} {w : Work} {e : ErrRecord} :
    scan f as w = .error e ↔
      ∃ good bad rest w', as = good ++ bad :: rest ∧ scan f good w = .ok w' ∧ f w' bad = .error e := by
  constructor
  · intro h
    induction as generalizing w with
    | nil => simp at h
    | cons a as ih =>
      cases ha : f w a with
      | ok v =>
        rw [scan_cons_ok ha] at h
        obtain ⟨good, bad, rest, w', rfl, hg, hb⟩ := ih h
        exact ⟨a :: good, bad, rest, w', rfl, by rw [scan_cons_ok ha, hg], hb⟩
      | error e' =>
        rw [scan_cons_error ha] at h
        exact ⟨[], a, as, w, rfl, rfl, by rw [ha, h]⟩
  · rintro ⟨good, bad, rest, w', rfl, hg, hb⟩
    rw [scan_append_ok hg, scan_cons_error hb]

/-- A loop whose every element appends lanes and moves on appends them all and ends at the length. -/
theorem scan_emits {f : Work → α → Result} (g : α → List Lane) {as : List α}
    (hf : ∀ a ∈ as, ∀ w, f w a = .ok (advance (emit (g a) w))) (w : Work) :
    scan f as w = .ok { w with i := w.i + as.length, out := w.out ++ as.flatMap g } := by
  induction as generalizing w with
  | nil => simp
  | cons a as ih =>
    rw [scan_cons_ok (hf a (.head _) w), ih fun b hb => hf b (.tail _ hb)]
    simp [advance, emit]
    omega

/-! ### The two ends of a request -/

@[simp] theorem complete_ok (w : Work) (s : State) : complete (.ok w) s = .next (s.succeed w.out) := rfl

@[simp] theorem complete_error (e : ErrRecord) (s : State) : complete (.error e) s = .next (s.fail e) := rfl

/-- The end of an operation is one of two next states (R33, R38). -/
theorem complete_eq_next {r : Result} {s t : State} :
    complete r s = .next t ↔ (∃ w, r = .ok w ∧ t = s.succeed w.out) ∨ ∃ e, r = .error e ∧ t = s.fail e := by
  cases r <;> simp [eq_comm]

theorem succeed_inj {s : State} {a b : List Lane} : s.succeed a = s.succeed b ↔ a = b := by
  constructor
  · intro h
    simpa using congrArg State.resp h
  · rintro rfl; rfl

theorem fail_inj {s : State} {a b : ErrRecord} : s.fail a = s.fail b ↔ a = b := by
  constructor
  · intro h
    simpa using congrArg State.resp h
  · rintro rfl; rfl

theorem succeed_ne_fail (s : State) (out : List Lane) (e : ErrRecord) : s.succeed out ≠ s.fail e := by
  intro h
  simpa using congrArg State.resp h

end Sys2Proof.Machine
end

