-- ==== Sys2Proof/Laws/PerInstr.lean ====
section
/-! SUPPORT. The families of statements about the instruction as syntax, one lemma per constructor of Instr. -/

namespace Sys2Proof

/-- The number of a descriptor with an offset: the offset in bits 10:4 above the operation's number. -/
theorem offset_descriptor_toNat {p o : Nat} (hp : p < 16) (ho : o ≤ 127) :
    (BitVec.ofNat 16 p ||| (BitVec.ofNat 16 o <<< 4)).toNat = p + 16 * o := by
  have h : p ||| o <<< 4 = p + o <<< 4 := by
    rw [Nat.or_comm, ← Nat.shiftLeft_add_eq_or_of_lt (show p < 2 ^ 4 by omega) o, Nat.add_comm]
  rw [BitVec.toNat_or, BitVec.toNat_shiftLeft, BitVec.toNat_ofNat, BitVec.toNat_ofNat,
    Nat.mod_eq_of_lt (show p < 2 ^ 16 by omega), Nat.mod_eq_of_lt (show o < 2 ^ 16 by omega),
    Nat.mod_eq_of_lt (show o <<< 4 < 2 ^ 16 by rw [Nat.shiftLeft_eq]; omega), h, Nat.shiftLeft_eq]
  omega

theorem rsvField_toNat (c : Descriptor) : (rsvField c).toNat = c.toNat / 0x800 := by
  have := c.isLt
  simp [rsvField, Nat.shiftRight_eq_div_pow]
  omega

theorem offsetField_toNat (c : Descriptor) : (offsetField c).toNat = c.toNat / 16 % 128 := by
  simp [offsetField, Nat.shiftRight_eq_div_pow]

theorem opField_toNat (c : Descriptor) : (opField c).toNat = c.toNat % 16 := by
  simp [opField]

/-- R90: the reserved field of a well-formed operation's descriptor is zero. -/
def Laws.EncodedRsvIsZero.Statement (i : Instr) : Prop := WellFormed i = true → rsvField (encode i) = 0

theorem Laws.EncodedRsvIsZero.dec16 : Laws.EncodedRsvIsZero.Statement .dec16 := fun _ => by decide

theorem Laws.EncodedRsvIsZero.enc16 : Laws.EncodedRsvIsZero.Statement .enc16 := fun _ => by decide

theorem Laws.EncodedRsvIsZero.dec8 : Laws.EncodedRsvIsZero.Statement .dec8 := fun _ => by decide

theorem Laws.EncodedRsvIsZero.enc8 : Laws.EncodedRsvIsZero.Statement .enc8 := fun _ => by decide

theorem Laws.EncodedRsvIsZero.t7dec : Laws.EncodedRsvIsZero.Statement .t7dec := fun _ => by decide

theorem Laws.EncodedRsvIsZero.t7enc (o : Nat) : Laws.EncodedRsvIsZero.Statement (.t7enc o) := fun h => by
  have ho : o ≤ 127 := by simpa [WellFormed, offsetOk] using h
  apply BitVec.eq_of_toNat_eq
  rw [rsvField_toNat, encode, offset_descriptor_toNat (by decide) ho]
  simp
  omega

theorem Laws.EncodedRsvIsZero.ksx (o : Nat) : Laws.EncodedRsvIsZero.Statement (.ksx o) := fun h => by
  have ho : o ≤ 127 := by simpa [WellFormed, offsetOk] using h
  apply BitVec.eq_of_toNat_eq
  rw [rsvField_toNat, encode, offset_descriptor_toNat (by decide) ho]
  simp
  omega

end Sys2Proof
end

