-- ==== Sys2Proof/Laws/Port.lean ====
section
/-! SUPPORT. What the request port can do: the capacity check, the three port actions, the host's acts. -/

namespace Sys2Proof.Machine

theorem overCapacity_iff {limit : Option Nat} {n : Nat} :
    overCapacity limit n = true ↔ ∃ m, limit = some m ∧ m < n := by
  cases limit <;> simp [overCapacity]
  omega

/-- The port's three actions, each with all it takes (R93, R242). -/
theorem portAction_eq_wait {s : State} : portAction s = .wait ↔ s.activity = .idle := by
  unfold portAction
  cases s.activity <;> simp
  cases decode s.cmd <;> simp
  split <;> simp

theorem portAction_eq_perform {s : State} {i : Instr} :
    portAction s = .perform i ↔
      s.activity = .inProgress ∧ decode s.cmd = .ok i ∧ overCapacity s.params.maxInLen s.n = false := by
  unfold portAction
  cases s.activity <;> simp
  cases decode s.cmd <;> simp
  split <;> simp_all

theorem portAction_eq_reject {s : State} {e : ErrRecord} :
    portAction s = .reject e ↔ s.activity = .inProgress ∧
      ((∃ r, decode s.cmd = .error r ∧ e = illegalOp s.cmd) ∨
        ∃ i m, decode s.cmd = .ok i ∧ s.params.maxInLen = some m ∧ m < s.n ∧ e = capacityError m s.n) := by
  unfold portAction
  cases s.activity <;> simp
  cases hd : decode s.cmd with
  | error r => simp [eq_comm]
  | ok i =>
    cases hm : s.params.maxInLen with
    | none => simp [overCapacity]
    | some m =>
      by_cases h : m < s.n
      · have : overCapacity (some m) s.n = true := overCapacity_iff.2 ⟨m, rfl, h⟩
        simp [this, h, eq_comm]
      · have : overCapacity (some m) s.n = false := by
          rw [Bool.eq_false_iff, ne_eq, overCapacity_iff]
          rintro ⟨k, hk, hlt⟩
          exact h ((Option.some.inj hk) ▸ hlt)
        simp [this, h]

/-- The host presents to the idle block only (R250). -/
theorem hostPresent_eq_next {c : Descriptor} {a : List Lane} {s t : State} :
    hostPresent c a s = .next t ↔
      s.activity = .idle ∧ t = { s with cmd := c, input := a, activity := .inProgress } := by
  unfold hostPresent
  cases s.activity <;> simp [eq_comm]

/-- The host reads a response of the idle block when a request has completed since reset (R38, R43). -/
theorem hostRead_eq_some {s : State} {r : Response} :
    hostRead s = some r ↔ s.activity = .idle ∧ s.responded = true ∧ s.resp = r := by
  unfold hostRead
  cases s.activity <;> simp

theorem hostRead_eq_none {s : State} : hostRead s = none ↔ s.activity = .inProgress ∨ s.responded = false := by
  unfold hostRead
  cases s.activity <;> simp

end Sys2Proof.Machine
end

