-- ==== Sys2Proof/Laws/Step.lean ====
section
/-! SUPPORT. What a step can do, said once. -/

namespace Sys2Proof.Machine

/-- A step waits, rejects the request at the port, or performs its operation. -/
theorem step_cases (s : State) :
    (s.activity = .idle ∧ step s = .next s) ∨
    (∃ e, portAction s = .reject e ∧ step s = .next (s.fail e)) ∨
    ∃ i, portAction s = .perform i ∧ step s = exec i s := by
  cases h : portAction s with
  | wait => exact .inl ⟨portAction_eq_wait.1 h, by simp [step, h]⟩
  | reject e => exact .inr (.inl ⟨e, rfl, by simp [step, h]⟩)
  | perform i => exact .inr (.inr ⟨i, rfl, by simp [step, h]⟩)

/-- The body of each operation on the request of a state: what `exec` completes. -/
def bodyOf (i : Instr) (s : State) : Result :=
  match i with
  | .dec16 => dec16 s.units s.work
  | .enc16 => enc16 s.codePoints s.work
  | .dec8 => dec8 s.params.fourByteMin s.bytes s.work
  | .enc8 => enc8 s.codePoints s.work
  | .t7dec => t7dec s.params s.units s.work
  | .t7enc o => t7enc s.params.keyTable o s.units s.work
  | .ksx o => ksx s.params.keyTable o s.bytes s.work

theorem exec_eq_complete (i : Instr) (s : State) : exec i s = complete (bodyOf i s) s := by
  cases i <;> rfl

/-- Every operation ends in one of the two ends of a request. -/
theorem exec_eq_next {i : Instr} {s t : State} :
    exec i s = .next t ↔
      (∃ w, bodyOf i s = .ok w ∧ t = s.succeed w.out) ∨ ∃ e, bodyOf i s = .error e ∧ t = s.fail e := by
  rw [exec_eq_complete, complete_eq_next]

/-- On an idle block, withFetchWord is the host's presenting of a request. -/
theorem hostPresent_eq_withFetchWord {s : State} {k w : Nat} (h : s.activity = .idle) :
    hostPresent (tableDescriptor k w) s.input s = .next (s.withFetchWord k w) :=
  hostPresent_eq_next.2 ⟨h, rfl⟩

@[simp] theorem withFetchWord_responded (s : State) (k w : Nat) : (s.withFetchWord k w).responded = s.responded := rfl
@[simp] theorem withFetchWord_params (s : State) (k w : Nat) : (s.withFetchWord k w).params = s.params := rfl
@[simp] theorem withFetchWord_input (s : State) (k w : Nat) : (s.withFetchWord k w).input = s.input := rfl
@[simp] theorem withFetchWord_activity (s : State) (k w : Nat) : (s.withFetchWord k w).activity = .inProgress := rfl
@[simp] theorem withFetchWord_cmd (s : State) (k w : Nat) : (s.withFetchWord k w).cmd = tableDescriptor k w := rfl

end Sys2Proof.Machine
end

