-- ==== Sys2Proof/Laws/Utf16.lean ====
section
/-! SUPPORT. What one element and the loops of DEC16 and ENC16 can do. -/

namespace Sys2Proof.Machine

open Sys2Proof.Safety

/-! ### DEC16 -/

theorem dec16Elem_nonSurrogate {w : Work} {u : CodeUnit} (h : ¬ IsSurrogate u.toNat) (hp : w.pend = none) :
    dec16Elem w u = .ok (advance (emit [unitLane u] w)) := by
  simp [dec16Elem, unitClass_eq_nonSurrogate.2 h, hp]

theorem dec16Elem_lead {w : Work} {u : CodeUnit} (h : IsLead u) (hp : w.pend = none) :
    dec16Elem w u = .ok (advance { w with pend := some (pendingOf u) }) := by
  simp [dec16Elem, unitClass_eq_lead.2 h, hp]

theorem dec16Elem_trail {w : Work} {u : CodeUnit} {p : BitVec 20} (h : IsTrail u) (hp : w.pend = some p) :
    dec16Elem w u = .ok (advance { emit [pairCodePoint p u] w with pend := none }) := by
  simp [dec16Elem, unitClass_eq_trail.2 h, hp]

/-- All one unit of DEC16 can do (R120 to R122). -/
theorem dec16Elem_ok_iff {w w' : Work} {u : CodeUnit} :
    dec16Elem w u = .ok w' ↔
      (IsLead u ∧ w.pend = none ∧ w' = advance { w with pend := some (pendingOf u) }) ∨
      (∃ p, IsTrail u ∧ w.pend = some p ∧ w' = advance { emit [pairCodePoint p u] w with pend := none }) ∨
      (¬ IsSurrogate u.toNat ∧ w.pend = none ∧ w' = advance (emit [unitLane u] w)) := by
  rw [← unitClass_eq_lead, ← unitClass_eq_trail, ← unitClass_eq_nonSurrogate]
  cases hu : unitClass u <;> cases hp : w.pend <;> simp [dec16Elem, hu, hp, eq_comm]

/-- The loop of DEC16 over the unit or pair of one code point, with nothing pending, writes that code point. -/
theorem scan_dec16_unitForm {c : Nat} (hc : HasUnits c) {w : Work} (hp : w.pend = none) :
    scan dec16Elem (unitForm c) w =
      .ok { w with i := w.i + (unitForm c).length, out := w.out ++ [cpLane c] } := by
  obtain ⟨hle, hs⟩ := hc
  by_cases hb : c < 0x10000
  · have hu : (BitVec.ofNat 16 c).toNat = c := by simp; omega
    have hl : unitLane (BitVec.ofNat 16 c) = cpLane c := by rw [unitLane_eq, hu]; rfl
    rw [unitForm, if_pos hb, scan_cons_ok (dec16Elem_nonSurrogate (by rwa [hu]) hp), hl]
    simp [advance, emit]
  · obtain ⟨u, v, hf, hu, hv, hcv⟩ := unitForm_supplementary (by omega) hle
    have hl : pairCodePoint (pendingOf u) v = cpLane c := by
      rw [← cpLane_toNat_self (pairCodePoint (pendingOf u) v), pairCodePoint_toNat hu hv, hcv]
    rw [hf, scan_cons_ok (dec16Elem_lead hu hp), scan_cons_ok (dec16Elem_trail hv rfl), hl]
    simp [advance, emit, ← hp]

/-- The loop of DEC16 over well-formed units, with nothing pending, writes their code points and leaves nothing
pending. -/
theorem scan_dec16_unitForms {cps : List Nat} (h : ∀ c ∈ cps, HasUnits c) {w : Work} (hp : w.pend = none) :
    scan dec16Elem (unitForms cps) w =
      .ok { w with i := w.i + (unitForms cps).length, out := w.out ++ cps.map cpLane } := by
  induction cps generalizing w with
  | nil => simp [unitForms]
  | cons c cs ih =>
    have hc : unitForms (c :: cs) = unitForm c ++ unitForms cs := by simp [unitForms]
    rw [hc, scan_append_ok (scan_dec16_unitForm (h c (.head _)) hp), ih (fun d hd => h d (.tail _ hd)) (by exact hp)]
    simp [Nat.add_assoc]

/-! ### ENC16 -/

/-- One valid code point of ENC16 writes its unit or pair (R126). -/
theorem enc16Elem_valid {c : Nat} (hc : Valid c) (w : Work) :
    enc16Elem w (cpLane c) = .ok (advance (emit ((unitForm c).map unitLane) w)) := by
  obtain ⟨hlt, hs⟩ := hc
  by_cases hb : c < 0x10000
  · have hw : (cpLane c).setWidth 16 = BitVec.ofNat 16 c := by
      apply BitVec.eq_of_toNat_eq
      rw [BitVec.toNat_setWidth, cpLane_toNat (by omega), BitVec.toNat_ofNat]
    simp [enc16Elem, codePointClass_cpLane_basic hb hs, hw, unitForm, if_pos hb]
  · rw [enc16Elem, codePointClass_cpLane_supplementary (by omega) hlt,
      ← leadOf_trailOf_cpLane (show 0x10000 ≤ c by omega) hlt]
    rfl

/-- All one code point of ENC16 can raise (R126). -/
theorem enc16Elem_error_iff {w : Work} {cp : CodePoint} {e : ErrRecord} :
    enc16Elem w cp = .error e ↔
      ((cp.toInt < 0 ∨ 0x10FFFF ≤ cp.toInt) ∧ e = ⟨.ecpRange, w.stage, w.i, cp⟩) ∨
      ((0xD800 ≤ cp.toInt ∧ cp.toInt ≤ 0xDFFF) ∧ e = ⟨.ecpSurrogate, w.stage, w.i, cp⟩) := by
  rw [← codePointClass_eq_outOfRange, ← codePointClass_eq_surrogate]
  cases h : codePointClass cp <;> simp [enc16Elem, h, eq_comm]

/-- The loop of ENC16 over valid code points writes their units. -/
theorem scan_enc16_valid {cps : List Nat} (h : ∀ c ∈ cps, Valid c) (w : Work) :
    scan enc16Elem (cps.map cpLane) w =
      .ok { w with i := w.i + cps.length, out := w.out ++ (unitForms cps).map unitLane } := by
  induction cps generalizing w with
  | nil => simp [unitForms]
  | cons c cs ih =>
    rw [List.map_cons, scan_cons_ok (enc16Elem_valid (h c (.head _)) w), ih fun d hd => h d (.tail _ hd)]
    simp [advance, emit, unitForms]
    omega

end Sys2Proof.Machine
end

