-- ==== Sys2Proof/Laws/Utf8.lean ====
section
/-! SUPPORT. The byte classes and the shortest-encoding test in plain arithmetic, and what one element and the loops of
DEC8 and ENC8 can do. -/

namespace Sys2Proof.Machine

open Sys2Proof.Safety

/-! ### Byte classes (R99) -/

theorem byteClass_single : ∀ n < 0x80, byteClass (BitVec.ofNat 8 n) = .single := by decide

theorem byteClass_continuation : ∀ n < 0x40, byteClass (BitVec.ofNat 8 (0x80 + n)) = .continuation := by decide

theorem byteClass_lead2 :
    ∀ n < 0x20, byteClass (BitVec.ofNat 8 (0xC0 + n)) = .lead (BitVec.ofNat 21 n) 1 2 := by decide

theorem byteClass_lead3 :
    ∀ n < 0x10, byteClass (BitVec.ofNat 8 (0xE0 + n)) = .lead (BitVec.ofNat 21 n) 2 3 := by decide

theorem byteClass_lead4 :
    ∀ n < 8, byteClass (BitVec.ofNat 8 (0xF0 + n)) = .lead (BitVec.ofNat 21 n) 3 4 := by decide

theorem byteClass_invalid : ∀ n < 8, byteClass (BitVec.ofNat 8 (0xF8 + n)) = .invalid := by decide

/-- The table of R99 in numbers: the class of every byte, with a lead's payload, `rem` and `tot`. -/
theorem byteClass_cases (b : Byte) :
    (b.toNat < 0x80 ∧ byteClass b = .single) ∨
    (0x80 ≤ b.toNat ∧ b.toNat < 0xC0 ∧ byteClass b = .continuation) ∨
    (0xC0 ≤ b.toNat ∧ b.toNat < 0xE0 ∧ byteClass b = .lead (BitVec.ofNat 21 (b.toNat - 0xC0)) 1 2) ∨
    (0xE0 ≤ b.toNat ∧ b.toNat < 0xF0 ∧ byteClass b = .lead (BitVec.ofNat 21 (b.toNat - 0xE0)) 2 3) ∨
    (0xF0 ≤ b.toNat ∧ b.toNat < 0xF8 ∧ byteClass b = .lead (BitVec.ofNat 21 (b.toNat - 0xF0)) 3 4) ∨
    (0xF8 ≤ b.toNat ∧ byteClass b = .invalid) := by
  have hb : b = BitVec.ofNat 8 b.toNat := by simp
  have hlt := b.isLt
  have shift : ∀ k ≤ b.toNat, b = BitVec.ofNat 8 (k + (b.toNat - k)) := fun k hk => by
    rw [Nat.add_sub_of_le hk]; exact hb
  by_cases h1 : b.toNat < 0x80
  · exact .inl ⟨h1, hb ▸ byteClass_single _ h1⟩
  by_cases h2 : b.toNat < 0xC0
  · refine .inr (.inl ⟨by omega, h2, ?_⟩)
    rw [shift 0x80 (by omega)]; exact byteClass_continuation _ (by omega)
  by_cases h3 : b.toNat < 0xE0
  · refine .inr (.inr (.inl ⟨by omega, h3, ?_⟩))
    conv_lhs => rw [shift 0xC0 (by omega)]
    exact byteClass_lead2 _ (by omega)
  by_cases h4 : b.toNat < 0xF0
  · refine .inr (.inr (.inr (.inl ⟨by omega, h4, ?_⟩)))
    conv_lhs => rw [shift 0xE0 (by omega)]
    exact byteClass_lead3 _ (by omega)
  by_cases h5 : b.toNat < 0xF8
  · refine .inr (.inr (.inr (.inr (.inl ⟨by omega, h5, ?_⟩))))
    conv_lhs => rw [shift 0xF0 (by omega)]
    exact byteClass_lead4 _ (by omega)
  · refine .inr (.inr (.inr (.inr (.inr ⟨by omega, ?_⟩))))
    rw [shift 0xF8 (by omega)]; exact byteClass_invalid _ (by omega)

/-- R141: folding a continuation byte multiplies by 2⁶ and adds its six payload bits. -/
theorem foldByte_ofNat {a x : Nat} (ha : a < 2 ^ 15) (hx : x < 0x40) :
    foldByte (BitVec.ofNat 21 a) (BitVec.ofNat 8 (0x80 + x)) = BitVec.ofNat 21 (a * 0x40 + x) := by
  apply BitVec.eq_of_toNat_eq
  have hm : (0x80 + x) &&& 0x3F = x := by
    have := Nat.and_two_pow_sub_one_eq_mod (0x80 + x) 6
    norm_num at this
    omega
  have hs : (a <<< 6) ||| x = a <<< 6 + x := (Nat.shiftLeft_add_eq_or_of_lt (by omega) a).symm
  simp only [foldByte, BitVec.toNat_or, BitVec.toNat_shiftLeft, BitVec.toNat_setWidth, BitVec.toNat_and,
    BitVec.toNat_ofNat]
  rw [Nat.mod_eq_of_lt (show a < 2 ^ 21 by omega), Nat.mod_eq_of_lt (show 0x80 + x < 2 ^ 8 by omega),
    Nat.mod_eq_of_lt (show 0x3F < 2 ^ 8 by omega), hm, Nat.mod_eq_of_lt (show x < 2 ^ 21 by omega),
    Nat.mod_eq_of_lt (show a <<< 6 < 2 ^ 21 by rw [Nat.shiftLeft_eq]; omega), hs, Nat.shiftLeft_eq]
  omega

/-- R143 in numbers: a completed value passes exactly when it is not below the least of its length. -/
theorem shortestOk_iff {m : FourByteMin} {v : BitVec 21} {t : Nat} (ht : 2 ≤ t) (ht' : t ≤ 4) :
    shortestOk m v (BitVec.ofNat 3 t) = true ↔ seqLeast m t ≤ v.toNat := by
  obtain rfl | rfl | rfl : t = 2 ∨ t = 3 ∨ t = 4 := by omega
  · simp [shortestOk, seqLeast]
    omega
  · simp [shortestOk, seqLeast]
    omega
  · have hm : 0x80 ≤ fourByteBound m := by cases m <;> decide
    simp [shortestOk, seqLeast]
    omega

/-! ### One byte of DEC8 -/

variable {m : FourByteMin}

theorem dec8Elem_single {w : Work} {b : Byte} (h : byteClass b = .single) (ha : w.acc = none) :
    dec8Elem m w b = .ok (advance (emit [byteLane b] w)) := by simp [dec8Elem, h, ha]

theorem dec8Elem_lead {w : Work} {b : Byte} {p : BitVec 21} {r : BitVec 2} {t : BitVec 3}
    (h : byteClass b = .lead p r t) (ha : w.acc = none) :
    dec8Elem m w b = .ok { w with i := w.i + 1, acc := some p, rem := r, tot := t } := by
  simp [dec8Elem, h, ha, advance]

/-- A continuation byte that is not the last folds its payload in (R141). -/
theorem dec8Elem_continuation {w : Work} {a x : Nat} {r : BitVec 2} (ha : a < 2 ^ 15) (hx : x < 0x40)
    (hacc : w.acc = some (BitVec.ofNat 21 a)) (hr : w.rem = r) (h1 : r - 1#2 ≠ 0#2) :
    dec8Elem m w (BitVec.ofNat 8 (0x80 + x)) =
      .ok { w with i := w.i + 1, acc := some (BitVec.ofNat 21 (a * 0x40 + x)), rem := r - 1#2 } := by
  subst hr
  simp [dec8Elem, byteClass_continuation x hx, hacc, foldByte_ofNat ha hx, h1, advance]

/-- The last continuation byte reaches the completion step with the completed value (R141, R142). -/
theorem dec8Elem_last {w : Work} {a x : Nat} (ha : a < 2 ^ 15) (hx : x < 0x40)
    (hacc : w.acc = some (BitVec.ofNat 21 a)) (hr : w.rem = 1#2) :
    dec8Elem m w (BitVec.ofNat 8 (0x80 + x)) =
      dec8Complete m { w with acc := some (BitVec.ofNat 21 (a * 0x40 + x)), rem := 0 }
        (BitVec.ofNat 21 (a * 0x40 + x)) := by
  simp [dec8Elem, byteClass_continuation x hx, hacc, foldByte_ofNat ha hx, hr]

theorem dec8Complete_ok {w : Work} {v : BitVec 21} (h : shortestOk m v w.tot = true) :
    dec8Complete m w v = .ok (advance { emit [v.setWidth 32] w with acc := none, tot := 0 }) := by
  simp [dec8Complete, h]

theorem dec8Complete_error {w : Work} {v : BitVec 21} (h : shortestOk m v w.tot = false) :
    dec8Complete m w v = .error ⟨.e8Overlong, w.stage, w.i, v.setWidth 32⟩ := by
  simp [dec8Complete, h]

/-- What DEC8 holds between two sequences (R36). -/
def NoSequence (w : Work) : Prop := w.acc = none ∧ w.rem = 0 ∧ w.tot = 0

theorem setWidth_ofNat_cpLane {v : Nat} (h : v < 2 ^ 21) : (BitVec.ofNat 21 v).setWidth 32 = cpLane v := by
  apply BitVec.eq_of_toNat_eq
  simp [cpLane]
  omega

/-- A sequence that exists has 1 to 4 bytes and a value of at most 21 bits. -/
theorem fits_bounds {q : Utf8Seq} (hq : q.Fits) : 1 ≤ q.len ∧ q.len ≤ 4 ∧ q.value < 2 ^ 21 := by
  obtain ⟨len, v⟩ := q
  match len with
  | 0 => simp [Utf8Seq.Fits, seqLimit] at hq
  | 1 | 2 | 3 | 4 => simp [Utf8Seq.Fits, seqLimit] at hq; simp; omega
  | k + 5 => simp [Utf8Seq.Fits, seqLimit] at hq

theorem bytes_length_of_fits {q : Utf8Seq} (hq : q.Fits) : q.bytes.length = q.len := by
  obtain ⟨len, v⟩ := q
  match len with
  | 0 => simp [Utf8Seq.Fits, seqLimit] at hq
  | 1 | 2 | 3 | 4 => rfl
  | k + 5 => simp [Utf8Seq.Fits, seqLimit] at hq

/-- The loop of DEC8 over a proper beginning of a sequence holds its leading payload bits in `acc`, the bytes still to
come in `rem` and its length in `tot`. -/
theorem scan_dec8_take {q : Utf8Seq} (hq : q.Fits) {j : Nat} (h0 : 0 < j) (hj : j < q.len) {w : Work}
    (hw : w.acc = none) :
    scan (dec8Elem m) (q.bytes.take j) w =
      .ok { w with i := w.i + j, acc := some (BitVec.ofNat 21 (q.value / 0x40 ^ (q.len - j))),
                   rem := BitVec.ofNat 2 (q.len - j), tot := BitVec.ofNat 3 q.len } := by
  have hb := fits_bounds hq
  obtain ⟨len, v⟩ := q
  dsimp only at hj hb
  obtain ⟨rfl, rfl⟩ | ⟨rfl, rfl⟩ | ⟨rfl, rfl⟩ | ⟨rfl, rfl⟩ | ⟨rfl, rfl⟩ | ⟨rfl, rfl⟩ :
      (len = 2 ∧ j = 1) ∨ (len = 3 ∧ j = 1) ∨ (len = 3 ∧ j = 2) ∨ (len = 4 ∧ j = 1) ∨ (len = 4 ∧ j = 2) ∨
        (len = 4 ∧ j = 3) := by omega
  all_goals simp only [Utf8Seq.Fits, seqLimit] at hq
  · exact scan_cons_ok (dec8Elem_lead (byteClass_lead2 (v / 0x40) (by omega)) hw)
  · exact scan_cons_ok (dec8Elem_lead (byteClass_lead3 (v / 0x1000) (by omega)) hw)
  · show scan (dec8Elem m) [_, _] w = _
    rw [scan_cons_ok (dec8Elem_lead (byteClass_lead3 (v / 0x1000) (by omega)) hw),
      scan_cons_ok (dec8Elem_continuation (r := 2#2) (a := v / 0x1000) (x := v / 0x40 % 0x40) (by omega) (by omega)
        rfl rfl (by decide)),
      show v / 0x1000 * 0x40 + v / 0x40 % 0x40 = v / 0x40 ^ (3 - 2) by omega]
    simp
  · exact scan_cons_ok (dec8Elem_lead (byteClass_lead4 (v / 0x40000) (by omega)) hw)
  · show scan (dec8Elem m) [_, _] w = _
    rw [scan_cons_ok (dec8Elem_lead (byteClass_lead4 (v / 0x40000) (by omega)) hw),
      scan_cons_ok (dec8Elem_continuation (r := 3#2) (a := v / 0x40000) (x := v / 0x1000 % 0x40) (by omega) (by omega)
        rfl rfl (by decide)),
      show v / 0x40000 * 0x40 + v / 0x1000 % 0x40 = v / 0x40 ^ (4 - 2) by omega]
    simp
  · show scan (dec8Elem m) [_, _, _] w = _
    rw [scan_cons_ok (dec8Elem_lead (byteClass_lead4 (v / 0x40000) (by omega)) hw),
      scan_cons_ok (dec8Elem_continuation (r := 3#2) (a := v / 0x40000) (x := v / 0x1000 % 0x40) (by omega) (by omega)
        rfl rfl (by decide)),
      scan_cons_ok (dec8Elem_continuation (r := 2#2) (a := v / 0x40000 * 0x40 + v / 0x1000 % 0x40) (x := v / 0x40 % 0x40)
        (by omega) (by omega) rfl rfl (by decide)),
      show (v / 0x40000 * 0x40 + v / 0x1000 % 0x40) * 0x40 + v / 0x40 % 0x40 = v / 0x40 ^ (4 - 3) by omega]
    simp

/-- A sequence of 2 to 4 bytes is all its bytes but the last, then a continuation byte with its six low bits. -/
theorem bytes_eq_take_last {q : Utf8Seq} (hq : q.Fits) (h2 : 2 ≤ q.len) :
    q.bytes = q.bytes.take (q.len - 1) ++ [BitVec.ofNat 8 (0x80 + q.value % 0x40)] := by
  have hb := fits_bounds hq
  obtain ⟨len, v⟩ := q
  dsimp only at h2 hb
  obtain rfl | rfl | rfl : len = 2 ∨ len = 3 ∨ len = 4 := by omega
  all_goals rfl

theorem scan_singleton {α : Type} (f : Work → α → Result) (a : α) (w : Work) : scan f [a] w = f w a := by
  rw [scan_cons]
  cases f w a <;> rfl

/-- The loop of DEC8 over one complete sequence of 2 to 4 bytes reaches the completion step with its value. -/
theorem scan_dec8_bytes {q : Utf8Seq} (hq : q.Fits) (h2 : 2 ≤ q.len) {w : Work} (hw : w.acc = none) :
    scan (dec8Elem m) q.bytes w =
      dec8Complete m
        { w with i := w.i + (q.len - 1), acc := some (BitVec.ofNat 21 q.value), rem := 0, tot := BitVec.ofNat 3 q.len }
        (BitVec.ofNat 21 q.value) := by
  have hb := fits_bounds hq
  rw [bytes_eq_take_last hq h2, scan_append_ok (scan_dec8_take hq (by omega) (by omega) hw), scan_singleton,
    dec8Elem_last (a := q.value / 0x40) (by omega) (by omega)]
  · rw [show q.value / 0x40 * 0x40 + q.value % 0x40 = q.value by omega]
  · rw [show q.len - (q.len - 1) = 1 by omega, Nat.pow_one]
  · rw [show q.len - (q.len - 1) = 1 by omega]

/-- The loop of DEC8 over one accepted sequence, with none in progress, writes its value. -/
theorem scan_dec8_accepted {q : Utf8Seq} (hq : q.Accepted m) {w : Work} (hw : NoSequence w) :
    scan (dec8Elem m) q.bytes w = .ok { w with i := w.i + q.bytes.length, out := w.out ++ [cpLane q.value] } := by
  obtain ⟨hf, hl⟩ := hq
  obtain ⟨ha, hr, ht⟩ := hw
  by_cases h1 : q.len = 1
  · obtain ⟨len, v⟩ := q
    subst h1
    simp only [Utf8Seq.Fits, seqLimit] at hf
    have hv : byteLane (BitVec.ofNat 8 v) = cpLane v := by
      rw [byteLane_eq, BitVec.toNat_ofNat, Nat.mod_eq_of_lt (by omega)]; rfl
    simp only [Utf8Seq.bytes]
    rw [scan_cons_ok (dec8Elem_single (byteClass_single v hf) ha), hv]
    simp [advance, emit]
  · obtain ⟨hge, hle, hv⟩ := fits_bounds hf
    have h2 : 2 ≤ q.len := by omega
    have hok : shortestOk m (BitVec.ofNat 21 q.value) (BitVec.ofNat 3 q.len) = true := by
      rw [shortestOk_iff h2 hle, BitVec.toNat_ofNat, Nat.mod_eq_of_lt hv]
      exact hl
    rw [scan_dec8_bytes hf h2 ha, dec8Complete_ok (by exact hok), setWidth_ofNat_cpLane hv, bytes_length_of_fits hf]
    simp [advance, emit, ← ha, ← hr, ← ht]
    omega

/-- The loop of DEC8 over accepted sequences writes their values and ends between two sequences. -/
theorem scan_dec8_seqBytes {qs : List Utf8Seq} (h : ∀ q ∈ qs, q.Accepted m) {w : Work} (hw : NoSequence w) :
    scan (dec8Elem m) (seqBytes qs) w =
      .ok { w with i := w.i + (seqBytes qs).length, out := w.out ++ qs.map fun q => cpLane q.value } := by
  induction qs generalizing w with
  | nil => simp [seqBytes]
  | cons q qs ih =>
    have hc : seqBytes (q :: qs) = q.bytes ++ seqBytes qs := by simp [seqBytes]
    rw [hc, scan_append_ok (scan_dec8_accepted (h q (.head _)) hw), ih (fun p hp => h p (.tail _ hp)) (by exact hw)]
    simp [Nat.add_assoc]

/-! ### ENC8 -/

/-- R150: the bytes ENC8 writes are the shortest form of R100. -/
theorem utf8Bytes_cpLane {c : Nat} (h : c < 0x10FFFF) : utf8Bytes (cpLane c) = utf8Form c := by
  have hn := cpLane_toNat (show c < 2 ^ 32 by omega)
  have mask : ∀ n, n &&& 0x3F = n % 0x40 := fun n => Nat.and_two_pow_sub_one_eq_mod n 6
  have o80 : ∀ x < 0x40, 0x80 ||| x = 0x80 + x := by decide
  have oC0 : ∀ x < 0x20, 0xC0 ||| x = 0xC0 + x := by decide
  have oE0 : ∀ x < 0x10, 0xE0 ||| x = 0xE0 + x := by decide
  have oF0 : ∀ x < 0x8, 0xF0 ||| x = 0xF0 + x := by decide
  have cont : ∀ k, ((0x80#32 ||| ((cpLane c >>> k) &&& 0x3F#32)).setWidth 8 : Byte)
      = BitVec.ofNat 8 (0x80 + c / 2 ^ k % 0x40) := fun k => by
    apply BitVec.eq_of_toNat_eq
    simp only [BitVec.toNat_setWidth, BitVec.toNat_or, BitVec.toNat_and, BitVec.toNat_ushiftRight, BitVec.toNat_ofNat,
      hn, Nat.shiftRight_eq_div_pow]
    rw [show 0x3F % 2 ^ 32 = 0x3F by rfl, show 0x80 % 2 ^ 32 = 0x80 by rfl, mask, o80 _ (Nat.mod_lt _ (by decide))]
  have cont0 : ((0x80#32 ||| (cpLane c &&& 0x3F#32)).setWidth 8 : Byte) = BitVec.ofNat 8 (0x80 + c % 0x40) := by
    simpa using cont 0
  have lead : ∀ (k p : Nat), p < 2 ^ 32 → (∀ x, x = c / 2 ^ k → p ||| x = p + x) →
      ((BitVec.ofNat 32 p ||| (cpLane c >>> k)).setWidth 8 : Byte) = BitVec.ofNat 8 (p + c / 2 ^ k) := fun k p hp ho => by
    apply BitVec.eq_of_toNat_eq
    simp only [BitVec.toNat_setWidth, BitVec.toNat_or, BitVec.toNat_ushiftRight, BitVec.toNat_ofNat,
      hn, Nat.shiftRight_eq_div_pow]
    rw [Nat.mod_eq_of_lt hp, ho _ rfl]
  unfold utf8Bytes utf8Form shortestLen
  rw [hn]
  split
  · simp only [Utf8Seq.bytes, List.cons.injEq, and_true]
    apply BitVec.eq_of_toNat_eq
    simp [hn]
  · split
    · have l := lead 6 0xC0 (by decide) (fun x hx => oC0 x (by omega))
      simp only [Utf8Seq.bytes, List.cons.injEq, and_true]
      exact ⟨l, cont0⟩
    · split
      · have l := lead 12 0xE0 (by decide) (fun x hx => oE0 x (by omega))
        simp only [Utf8Seq.bytes, List.cons.injEq, and_true]
        exact ⟨l, cont 6, cont0⟩
      · have l := lead 18 0xF0 (by decide) (fun x hx => oF0 x (by omega))
        simp only [Utf8Seq.bytes, List.cons.injEq, and_true]
        exact ⟨l, cont 12, cont 6, cont0⟩

/-- One code point of ENC8 in range writes its shortest form. -/
theorem enc8Elem_inRange {c : Nat} (h : c < 0x10FFFF) (w : Work) :
    enc8Elem w (cpLane c) = .ok (advance (emit ((utf8Form c).map byteLane) w)) := by
  rw [enc8Elem, cpLane_toInt (by omega), cpLimit, if_neg (by omega), utf8Bytes_cpLane h]

/-- All one code point of ENC8 can raise (R150). -/
theorem enc8Elem_error_iff {w : Work} {cp : CodePoint} {e : ErrRecord} :
    enc8Elem w cp = .error e ↔
      (cp.toInt < 0 ∨ 0x10FFFF ≤ cp.toInt) ∧ e = ⟨.ecpRange, w.stage, w.i, cp⟩ := by
  unfold enc8Elem cpLimit
  split <;> simp_all [eq_comm]

/-- The loop of ENC8 over code points in range writes their shortest forms. -/
theorem scan_enc8_inRange {cps : List Nat} (h : ∀ c ∈ cps, c < 0x10FFFF) (w : Work) :
    scan enc8Elem (cps.map cpLane) w =
      .ok { w with i := w.i + cps.length, out := w.out ++ (utf8Forms cps).map byteLane } := by
  induction cps generalizing w with
  | nil => simp [utf8Forms]
  | cons c cs ih =>
    rw [List.map_cons, scan_cons_ok (enc8Elem_inRange (h c (.head _)) w), ih fun d hd => h d (.tail _ hd)]
    simp [advance, emit, utf8Forms]
    omega

/-- The shortest form of a code point in range is an accepted sequence under every setting (R151). -/
theorem shortest_accepted {c : Nat} (h : c < 0x10FFFF) (m : FourByteMin) :
    Utf8Seq.Accepted m { len := shortestLen c, value := c } := by
  unfold shortestLen
  split
  · simp [Utf8Seq.Accepted, seqLimit, seqLeast]
    omega
  · split
    · simp [Utf8Seq.Accepted, seqLimit, seqLeast]
      omega
    · split
      · simp [Utf8Seq.Accepted, seqLimit, seqLeast]
        omega
      · cases m <;> simp [Utf8Seq.Accepted, seqLimit, seqLeast, fourByteBound] <;> omega

end Sys2Proof.Machine
end

