-- ==== Sys2Proof/Laws/Type7.lean ====
section
/-! SUPPORT. The keystream, the digits of type-7 text, and what the loops of KSX, VALIDATE, PARSE and FORMAT can do. -/

namespace Sys2Proof.Machine

open Sys2Proof.Safety

/-! ### The keystream -/

theorem keyByte_eq (k : KeyTable) (j : Nat) : keyByte k j = (k.toList.getD (j % 54) 0).setWidth 8 := by
  have hl : j % 54 < k.toList.length := by
    rw [Vector.length_toList]
    exact Nat.mod_lt _ (by decide)
  rw [List.getD_eq_getElem _ _ hl, Vector.getElem_toList]
  rfl

/-- The key table repeats every 54 entries (R170). -/
theorem keyByte_add_len (k : KeyTable) (j : Nat) : keyByte k (j + 54) = keyByte k j := by
  simp [keyByte_eq]

/-- The loop of KSX xors the keystream that starts at its index (R171). -/
theorem scan_ksx (k : KeyTable) (o : Nat) (bs : List Byte) (w : Work) :
    scan (ksxElem k o) bs w =
      .ok { w with i := w.i + bs.length,
                   out := w.out ++ (bs.mapIdx fun j b => b ^^^ keyByte k (o + (w.i + j))).map byteLane } := by
  induction bs generalizing w with
  | nil => simp
  | cons b bs ih =>
    rw [scan_cons_ok rfl, ih]
    have hidx : ∀ j, o + (w.i + 1 + j) = o + (w.i + (j + 1)) := fun j => by omega
    simp [advance, emit, List.mapIdx_cons, hidx]
    omega

/-- The body of KSX never fails and writes the sequence xored with the keystream (R172). -/
theorem ksx_eq (k : KeyTable) (o : Nat) (bs : List Byte) (w : Work) :
    ksx k o bs w =
      .ok { enter .ksx w with i := bs.length, out := (keystreamXor k o bs).map byteLane } := by
  simp [ksx, scan_ksx, keystreamXor, keyByte_eq]

theorem keystreamXor_length (k : KeyTable) (o : Nat) (bs : List Byte) : (keystreamXor k o bs).length = bs.length := by
  simp [keystreamXor]

/-- R173 for byte sequences. -/
theorem keystreamXor_keystreamXor (k : KeyTable) (o : Nat) (bs : List Byte) :
    keystreamXor k o (keystreamXor k o bs) = bs := by
  apply List.ext_getElem <;> simp [keystreamXor]

/-! ### Digits -/

theorem hexDigits_ofNat :
    ∀ h < 16, ∀ l < 16, hexDigits (BitVec.ofNat 8 (16 * h + l)) = [hexUnit h, hexUnit l] := by decide

theorem hashByte_ofNat : ∀ h < 16, ∀ l < 16, hashByte (hexUnit h) (hexUnit l) = BitVec.ofNat 8 (16 * h + l) := by
  decide

theorem byte_eq_nibbles (b : Byte) : b = BitVec.ofNat 8 (16 * (b.toNat / 16) + b.toNat % 16) := by
  rw [Nat.div_add_mod]
  simp

/-- R182: the digits of a byte are its high and its low nibble in hexadecimal. -/
theorem hexDigits_eq (b : Byte) : hexDigits b = [hexUnit (b.toNat / 16), hexUnit (b.toNat % 16)] := by
  have hlt := b.isLt
  conv_lhs => rw [byte_eq_nibbles b]
  exact hexDigits_ofNat _ (by omega) _ (by omega)

/-- R177: the two digits of a byte read back as the byte. -/
theorem hashByte_hexUnit (b : Byte) : hashByte (hexUnit (b.toNat / 16)) (hexUnit (b.toNat % 16)) = b := by
  have hlt := b.isLt
  rw [hashByte_ofNat _ (by omega) _ (by omega), ← byte_eq_nibbles]

theorem isHex_hexUnit : ∀ v < 16, isHex (hexUnit v) = true := by decide

theorem saltDigits_isDigit {o : Nat} (ho : o ≤ 99) : ∀ u ∈ saltDigits o, isDigit u = true := by
  intro u hu
  simp only [saltDigits, List.mem_cons, List.not_mem_nil, or_false] at hu
  obtain rfl | rfl := hu <;> simp [isDigit] <;> omega

/-- R177: the two salt digits read back as the offset. -/
theorem saltValue_saltDigits {o : Nat} (ho : o ≤ 99) :
    saltValue (BitVec.ofNat 16 (0x30 + o / 10)) (BitVec.ofNat 16 (0x30 + o % 10)) = BitVec.ofNat 7 o := by
  unfold saltValue decValue
  congr 1
  simp only [BitVec.toNat_ofNat]
  omega

theorem isDigit_iff {u : CodeUnit} : isDigit u = true ↔ IsDigit u := by simp [isDigit]

theorem isHex_iff {u : CodeUnit} : isHex u = true ↔ IsHex u := by simp [isHex, isDigit]

theorem type7Text_eq (o : Nat) (bs : List Byte) : type7Text o bs = saltDigits o ++ bs.flatMap hexDigits := by
  have h : hexDigits = fun b => [hexUnit (b.toNat / 16), hexUnit (b.toNat % 16)] := funext hexDigits_eq
  simp [type7Text, saltDigits, h]

theorem type7Text_length (o : Nat) (bs : List Byte) : (type7Text o bs).length = 2 + 2 * bs.length := by
  simp [type7Text]
  omega

/-! ### FORMAT -/

/-- The FORMAT stage never fails and writes the text of its salt and bytes (R182). -/
theorem format_eq (o : Nat) (c : List Byte) (w : Work) :
    format o c w = .ok { enter .format w with i := c.length, out := (type7Text o c).map unitLane } := by
  rw [format, scan_emits (f := formatElem) (fun b => (hexDigits b).map unitLane) (fun _ _ _ => rfl)]
  simp [type7Text_eq, enter, emit, List.map_flatMap]

/-! ### VALIDATE -/

/-- The hash part of the VALIDATE scan over hex digits only moves on. -/
theorem scan_validate_hash {t : List CodeUnit} (h : ∀ u ∈ t, isHex u = true) {w : Work} (hw : 2 ≤ w.i) :
    scan validateElem t w = .ok { w with i := w.i + t.length } := by
  induction t generalizing w with
  | nil => simp
  | cons u us ih =>
    have hu : validateElem w u = .ok (advance w) := by
      simp [validateElem, Nat.not_lt.2 hw, h u (.head _)]
    rw [scan_cons_ok hu, ih (fun v hv => h v (.tail _ hv)) (by simp; omega)]
    simp [advance]
    omega

/-- The VALIDATE stage passes every text of the grammar of R102. -/
theorem validate_type7 {t : List CodeUnit} (h : IsType7Text t) (w : Work) :
    validate t w = .ok { enter .validate w with i := t.length } := by
  obtain ⟨h2, hpar, hs, hh⟩ := h
  match t, h2 with
  | a :: b :: rest, _ =>
    have ha : isDigit a = true := isDigit_iff.2 (hs a (by simp))
    have hb : isDigit b = true := isDigit_iff.2 (hs b (by simp))
    have hr : ∀ u ∈ rest, isHex u = true := fun u hu => isHex_iff.2 (hh u (by simpa using hu))
    have e1 : ∀ w : Work, w.i < 2 → ∀ u, isDigit u = true → validateElem w u = .ok (advance w) :=
      fun w hw u hu => by simp [validateElem, hw, hu]
    have hlen : ¬ (a :: b :: rest).length % 2 = 1 := by omega
    have hlen' : ¬ (a :: b :: rest).length < 2 := by simp
    rw [validate, if_neg hlen, if_neg hlen', scan_cons_ok (e1 _ (by simp) a ha), scan_cons_ok (e1 _ (by simp) b hb),
      scan_validate_hash hr (by simp)]
    simp [advance, enter]
    omega

theorem isType7Text_type7Text {o : Nat} (ho : o ≤ 99) (bs : List Byte) : IsType7Text (type7Text o bs) := by
  refine ⟨by simp [type7Text], by simp [type7Text_length], ?_, ?_⟩
  · intro u hu
    rw [type7Text_eq, List.take_append_of_le_length (by simp [saltDigits])] at hu
    exact isDigit_iff.1 (saltDigits_isDigit ho u (List.mem_of_mem_take hu))
  · intro u hu
    simp only [type7Text, List.drop_succ_cons, List.drop_zero, List.mem_flatMap] at hu
    obtain ⟨b, -, hb⟩ := hu
    have hlt := b.isLt
    simp only [List.mem_cons, List.not_mem_nil, or_false] at hb
    obtain rfl | rfl := hb
    · exact isHex_iff.1 (isHex_hexUnit _ (by omega))
    · exact isHex_iff.1 (isHex_hexUnit _ (by omega))

/-! ### PARSE -/

/-- The loop of PARSE never fails and appends the byte of every pair (R177, R178). -/
theorem scan_parse (ps : List (CodeUnit × CodeUnit)) (w : Work) :
    scan parseElem ps w =
      .ok { w with i := w.i + ps.length, raw := w.raw ++ ps.map fun p => hashByte p.1 p.2 } := by
  induction ps generalizing w with
  | nil => simp
  | cons p ps ih =>
    rw [scan_cons_ok rfl, ih]
    simp [advance]
    omega

theorem hexPairs_flatMap (bs : List Byte) :
    (hexPairs (bs.flatMap fun b => [hexUnit (b.toNat / 16), hexUnit (b.toNat % 16)])).map (fun p => hashByte p.1 p.2)
      = bs := by
  induction bs with
  | nil => rfl
  | cons b bs ih => simp [hexPairs, hashByte_hexUnit, ih]

theorem hexPairs_length (t : List CodeUnit) : (hexPairs t).length = t.length / 2 := by
  induction t using hexPairs.induct with
  | case1 hi lo rest ih =>
    simp [hexPairs, ih]
    omega
  | case2 t h =>
    match t, h with
    | [], _ => rfl
    | [a], _ => simp [hexPairs]
    | a :: b :: r, h => exact absurd rfl (h a b r)

/-- The PARSE stage reads back the salt and the hash of a text (R177). -/
theorem parse_type7Text {o : Nat} (ho : o ≤ 99) (bs : List Byte) (w : Work) :
    parse (type7Text o bs) w =
      .ok { enter .parse w with i := bs.length, salt := BitVec.ofNat 7 o, raw := bs } := by
  have hl : (hexPairs ((type7Text o bs).drop 2)).length = bs.length := by
    rw [hexPairs_length, List.length_drop, type7Text_length]
    omega
  rw [parse, scan_parse, hl]
  simp [type7Text, hexPairs_flatMap, saltValue_saltDigits ho, enter]

end Sys2Proof.Machine
end

