-- ==== Sys2Proof/Tests/Slice0.lean ====
section
/-! SUPPORT. Tests: the well-formedness smoke, descriptors written out from 30_encoding.md R90 and R91, at most two
vectors of 95_test_vectors.md for each operation, and for each statement with hypotheses a state that meets them. -/

namespace Sys2Proof.Tests

open Sys2Proof.Machine Sys2Proof.Safety

/-! ### Small states -/

/-- `TK_SEQ` of 95_test_vectors.md: entry j is 0x30 + j. -/
def keySeq : KeyTable := Vector.ofFn fun j => BitVec.ofNat 7 (0x30 + j.val)

/-- `TK_ZERO`: every entry 0. -/
def keyZero : KeyTable := Vector.ofFn fun _ => 0

/-- Working registers with values of an operation that is over: no operation may see them. -/
def leftover : Work :=
  { i := 7, out := [1], pend := some 3, acc := some 5, rem := 2, tot := 3, stage := .format, salt := 9, raw := [1],
    ks := [2], cps := [3] }

/-- A block under `TK_SEQ`, `FOUR_BYTE_MIN` = 0x80 and no capacity bound, with a request in progress. -/
def request (c : Descriptor) (input : List Lane) : State :=
  { params := ⟨keySeq, .x80, none⟩, cmd := c, input := input, activity := .inProgress, resp := .ok [5],
    responded := true, work := leftover }

/-- The same request under other parameters. -/
def requestUnder (p : Params) (c : Descriptor) (input : List Lane) : State :=
  { request c input with params := p }

/-- The idle block. -/
def idleBlock : State := { request 0 [] with activity := .idle }

/-- The response a step leaves. -/
def response : Host.Outcome State Fault Refusal → Option Response
  | .next t => some t.resp
  | _ => none

/-! ### Well-formedness refuses what no descriptor encodes (R92) -/

theorem test_wellFormed_refuses_t7enc_128 : WellFormed (.t7enc 128) = false := by decide

theorem test_wellFormed_refuses_ksx_128 : WellFormed (.ksx 128) = false := by decide

theorem test_wellFormed_accepts_127 : WellFormed (.t7enc 127) = true ∧ WellFormed (.ksx 127) = true := by decide

/-! ### Descriptors written out bit by bit: RSV, OFFSET, OP (R90, R91) -/

theorem test_decode_dec16 : decode 0b00000_0000000_0001#16 = .ok .dec16 := rfl

theorem test_decode_enc16 : decode 0b00000_0000000_0010#16 = .ok .enc16 := rfl

theorem test_decode_dec8 : decode 0b00000_0000000_0011#16 = .ok .dec8 := rfl

theorem test_decode_enc8 : decode 0b00000_0000000_0100#16 = .ok .enc8 := rfl

theorem test_decode_t7dec : decode 0b00000_0000000_0101#16 = .ok .t7dec := rfl

theorem test_decode_t7enc : decode 0b00000_1100011_0110#16 = .ok (.t7enc 99) := rfl

theorem test_decode_ksx : decode 0b00000_1101010_0111#16 = .ok (.ksx 106) := rfl

theorem test_decode_refuses :
    decode 0x8001#16 = .error .reservedBits ∧ decode 0x0806#16 = .error .reservedBits ∧
    decode 0x0000#16 = .error .reservedOp ∧ decode 0x0008#16 = .error .reservedOp ∧
    decode 0x0011#16 = .error .offsetNotZero ∧ decode 0x0015#16 = .error .offsetNotZero :=
  ⟨rfl, rfl, rfl, rfl, rfl, rfl⟩

theorem test_encode_t7enc_ksx : encode (.t7enc 45) = 0x02D6#16 ∧ encode (.ksx 127) = 0x07F7#16 := by decide

theorem test_first_request_after_reset :
    step (State.reset.withFetchWord 16 0x0347) = exec (.ksx 52) (State.reset.withFetchWord 16 0x0347) := rfl

/-! ### Operations: vectors of 95_test_vectors.md -/

/-- Section 3.1: `pend` = some(0) is present. -/
theorem test_dec16_smallest_pair :
    response (step (request 0x0001 [0xD800, 0xDC00])) = some (.ok [0x10000]) := by decide

/-- Section 3.1. -/
theorem test_dec16_trail_after_pair :
    response (step (request 0x0001 [0x41, 0xD800, 0xDC00, 0xDC00])) =
      some (.err ⟨.e16TrailWithoutLead, .dec16, 3, 0xDC00⟩) := by decide

/-- Section 3.2. -/
theorem test_enc16_largest : response (step (request 0x0002 [0x10FFFE])) = some (.ok [0xDBFF, 0xDFFE]) := by decide

/-- Section 3.2: a negative lane. -/
theorem test_enc16_negative :
    response (step (request 0x0002 [0xFFFFFFFF])) = some (.err ⟨.ecpRange, .enc16, 0, 0xFFFFFFFF⟩) := by decide

/-- Section 3.3: the preserved 4-byte gap. -/
theorem test_dec8_four_byte_gap :
    response (step (request 0x0003 [0xF0, 0x80, 0x9F, 0xBF])) = some (.ok [0x7FF]) := by decide

/-- Section 3.3: `acc` = some(0) is in progress. -/
theorem test_dec8_low_after_c0 :
    response (step (request 0x0003 [0xC0, 0x41])) = some (.err ⟨.e8LowMidSeq, .dec8, 1, 0x41⟩) := by decide

/-- Section 3.4: a surrogate is encoded. -/
theorem test_enc8_surrogate : response (step (request 0x0004 [0xD800])) = some (.ok [0xED, 0xA0, 0x80]) := by decide

/-- Section 3.4. -/
theorem test_enc8_limit :
    response (step (request 0x0004 [0x10FFFF])) = some (.err ⟨.ecpRange, .enc8, 0, 0x10FFFF⟩) := by decide

/-- Section 3.6: salt 99 acts as 45. -/
theorem test_t7dec_salt_99 :
    response (step (request 0x0005 [0x39, 0x39, 0x31, 0x43, 0x31, 0x43])) = some (.ok [0x41, 0x42]) := by decide

/-- Section 3.6: "00EDA080" under `TK_ZERO`. -/
theorem test_t7dec_decoded_surrogate :
    response (step (requestUnder ⟨keyZero, .x80, none⟩ 0x0005 [0x30, 0x30, 0x45, 0x44, 0x41, 0x30, 0x38, 0x30])) =
      some (.err ⟨.ecpSurrogate, .enc16, 0, 0xD800⟩) := by decide

/-- Section 3.7: "532472", key indices 53 and 0. -/
theorem test_t7enc_wraps :
    response (step (request 0x0356 [0x41, 0x42])) = some (.ok [0x35, 0x33, 0x32, 0x34, 0x37, 0x32]) := by decide

/-- Section 3.7: U+10FFFF fails in ENC8. -/
theorem test_t7enc_limit :
    response (step (request 0x0016 [0xDBFF, 0xDFFF])) = some (.err ⟨.ecpRange, .enc8, 0, 0x10FFFF⟩) := by decide

/-- Section 3.5: wraps 52, 53, 0, 1. -/
theorem test_ksx_wraps :
    response (step (request 0x0347 [0, 0, 0, 0])) = some (.ok [0x64, 0x65, 0x30, 0x31]) := by decide

/-- Section 3.8: the descriptor checks come before the capacity check. -/
theorem test_port_order :
    response (step (requestUnder ⟨keySeq, .x80, some 4⟩ 0x8001 [0, 0, 0, 0, 0])) =
      some (.err ⟨.eIllegalOp, .none, 0, 0x8001⟩) ∧
    response (step (requestUnder ⟨keySeq, .x80, some 4⟩ 0x0007 [0, 0, 0, 0, 0])) =
      some (.err ⟨.eCapacity, .none, 5, 4⟩) := by decide

/-! ### A state for the hypotheses of each statement -/

theorem witness_EncodedOperationDecodesToItself : WellFormed (.ksx 127) = true ∧ WellFormed (.t7enc 0) = true := by
  decide

theorem witness_AcceptedDescriptorIsItsEncoding : decode 0x07F6#16 = .ok (.t7enc 127) := rfl

theorem witness_OffsetOperandIsZeroExtendedField :
    ((0x07F6#16).toNat < 0x800 ∧ (0x07F6#16).toNat % 16 = 6) ∧
    ((0x0007#16).toNat < 0x800 ∧ (0x0007#16).toNat % 16 = 7) := by decide

theorem witness_IllegalDescriptorFailsWithIllegalOp :
    (request 0x0801 []).activity = .inProgress ∧ 0x800 ≤ (request 0x0801 []).cmd.toNat ∧
    (request 0x0018 []).cmd.toNat % 16 = 8 ∧ (request 0x0010 []).cmd.toNat % 16 = 0 ∧
    (request 0x0015 []).cmd.toNat % 16 = 5 ∧ (request 0x0015 []).cmd.toNat / 16 % 128 ≠ 0 := by decide

theorem fits_unbounded (s : State) (h : s.params.maxInLen = none) : Fits s := fun m hm => by simp [h] at hm

theorem witness_DescriptorChecksRunInOrder :
    decode 0x0800#16 = .error .reservedBits ∧ decode 0x07F8#16 = .error .reservedOp ∧
    decode 0x0015#16 = .error .offsetNotZero ∧ decode 0x0005#16 = .ok .t7dec ∧ decode 0x0006#16 = .ok (.t7enc 0) ∧
    Fits (request 0x0005 [1]) ∧ ¬ Fits (requestUnder ⟨keySeq, .x80, some 0⟩ 0x0005 [1]) :=
  ⟨rfl, rfl, rfl, rfl, rfl, fits_unbounded _ rfl, fun h => absurd (h 0 rfl) (by decide)⟩

theorem witness_LargeOffsetsAreLegalEncodings :
    Fits (request 0x0646 [0x61]) ∧ (request 0x0646 [0x61]).cmd = BitVec.ofNat 16 (0x0006 + 16 * 100) ∧
    (request 0x07F6 []).cmd = BitVec.ofNat 16 (0x0006 + 16 * 127) ∧
    (request 0x07F7 []).cmd = BitVec.ofNat 16 (0x0007 + 16 * 127) :=
  ⟨fits_unbounded _ rfl, rfl, rfl, rfl⟩

theorem witness_StepRunsTheDecodedOperation :
    (request 0x0036 [0x63]).activity = .inProgress ∧ decode (request 0x0036 [0x63]).cmd = .ok (.t7enc 3) ∧
    Fits (request 0x0036 [0x63]) := ⟨rfl, rfl, fits_unbounded _ rfl⟩

theorem witness_IdleBlockWaits : idleBlock.activity = .idle := rfl

theorem witness_CapacityFailsExactlyOnLongInput :
    decode (requestUnder ⟨keySeq, .x80, some 4⟩ 0x0007 [0, 0, 0, 0, 0]).cmd = .ok (.ksx 0) ∧
    4 < (requestUnder ⟨keySeq, .x80, some 4⟩ 0x0007 [0, 0, 0, 0, 0]).input.length ∧
    step (requestUnder ⟨keySeq, .x80, some 4⟩ 0x0007 [0, 0, 0, 0, 0]) =
      .next (answered (requestUnder ⟨keySeq, .x80, some 4⟩ 0x0007 [0, 0, 0, 0, 0])
        (.err ⟨.eCapacity, .none, 5, 4⟩)) := ⟨rfl, by decide, rfl⟩

theorem witness_EveryRequestIsAnsweredInOneStep : (request 0xFFFF [1]).activity = .inProgress := rfl

theorem witness_ParametersAndRequestAreNeverWritten :
    Host.Core.run Sys2Proof.core 2 (request 0x0001 [0x41]) = .next (answered (request 0x0001 [0x41]) (.ok [0x41])) :=
  rfl

theorem witness_ResponseDependsOnRequestAndParametersOnly :
    (request 0x0003 [0xC5]).params = ({ request 0x0003 [0xC5] with work := Work.idle, resp := .ok [] } : State).params ∧
    request 0x0003 [0xC5] ≠ { request 0x0003 [0xC5] with work := Work.idle, resp := .ok [] } := by decide

theorem witness_OrderOfRequestsChangesNoResponse :
    ∃ s₁ s₂ t₁ t₂ : State, hostPresent 0x0003 [0xC5] idleBlock = .next s₁ ∧ step s₁ = .next s₂ ∧
      hostPresent 0x0003 [0x99] s₂ = .next t₁ ∧ step t₁ = .next t₂ := ⟨_, _, _, _, rfl, rfl, rfl, rfl⟩

theorem witness_EveryStepKeepsTheInvariant :
    Inv { request 0x0005 [0x41] with work := Work.idle } ∧
    ∃ t, step { request 0x0005 [0x41] with work := Work.idle } = .next t := by
  refine ⟨⟨?_, rfl⟩, _, rfl⟩
  simp [LegalResponse, request]

theorem witness_HostIsStuckWhileRequestInProgress :
    (request 0x0001 []).activity = .inProgress ∧ idleBlock.activity = .idle := ⟨rfl, rfl⟩

theorem witness_OutputLengthIsBounded :
    exec .dec16 (request 0 [0xD800, 0xDC00]) = .next (answered (request 0 [0xD800, 0xDC00]) (.ok [0x10000])) ∧
    exec .enc16 (request 0 [0x10000]) = .next (answered (request 0 [0x10000]) (.ok [0xD800, 0xDC00])) ∧
    exec .dec8 (request 0 [0x41]) = .next (answered (request 0 [0x41]) (.ok [0x41])) ∧
    exec .enc8 (request 0 [0x10000]) = .next (answered (request 0 [0x10000]) (.ok [0xF0, 0x90, 0x80, 0x80])) ∧
    exec .t7dec (request 0 [0x39, 0x39]) = .next (answered (request 0 [0x39, 0x39]) (.ok [])) ∧
    exec (.ksx 0) (request 0 [0]) = .next (answered (request 0 [0]) (.ok [0x30])) ∧
    exec (.t7enc 7) (request 0 []) = .next (answered (request 0 []) (.ok [0x30, 0x37])) :=
  ⟨rfl, rfl, rfl, rfl, rfl, rfl, rfl⟩

theorem witness_ErrorIndexIsWithinInput :
    step (request 0x0001 [0x41, 0xD800]) =
      .next (answered (request 0x0001 [0x41, 0xD800]) (.err ⟨.e16DanglingLead, .dec16, 2, 0xD800⟩)) := rfl

theorem witness_HexDecodingNeverFails :
    (∃ v, validate [0x30, 0x39, 0x41, 0x46] leftover = .ok v) ∧
    step (request 0x0005 [0x30, 0x30, 0x47, 0x30]) = .next (answered (request 0x0005 [0x30, 0x30, 0x47, 0x30])
      (.err ⟨.e7HashDigit, .validate, 2, 0x47⟩)) := ⟨⟨_, rfl⟩, rfl⟩

theorem witness_CodecErrorsReadNoLaterElement :
    exec .dec8 (request 0 [0x80, 0x41]) =
      .next (answered (request 0 [0x80, 0x41]) (.err ⟨.e8ContWithoutLead, .dec8, 0, 0x80⟩)) ∧
    (request 0 [0x80, 0xF8, 0xF8]).params = (request 0 [0x80, 0x41]).params ∧
    (request 0 [0x80, 0xF8, 0xF8]).input.take 1 = (request 0 [0x80, 0x41]).input.take 1 := ⟨rfl, rfl, rfl⟩

theorem witness_LanesKeepTheirValues :
    (request 0 [0xFFFF, 0]).input = [0xFFFF#16, 0#16].map (fun u => BitVec.ofNat 32 u.toNat) ∧
    (request 0 [0xFF, 0]).input = [0xFF#8, 0#8].map (fun b => BitVec.ofNat 32 b.toNat) := by decide

theorem witness_Dec16DecodesUnitsAndPairs :
    (∀ c ∈ [0xD7FF, 0xE000, 0xFFFF, 0x10000, 0x10FFFF], HasUnits c) ∧
    (request 0 [0xD7FF, 0xE000, 0xFFFF, 0xD800, 0xDC00, 0xDBFF, 0xDFFF]).units =
      unitForms [0xD7FF, 0xE000, 0xFFFF, 0x10000, 0x10FFFF] := by decide

theorem witness_Dec16SucceedsOnlyOnUnitsAndPairs :
    exec .dec16 (request 0 [0xD83C, 0xDFCD]) = .next (answered (request 0 [0xD83C, 0xDFCD]) (.ok [0x1F3CD])) := rfl

theorem witness_Dec16RejectsUnpairedSurrogates :
    (∀ c ∈ [0x10000], HasUnits c) ∧ IsLead 0xDBFF#16 ∧ IsLead 0xD800#16 ∧ IsTrail 0xDC00#16 ∧
    ¬ IsSurrogate (0xE000#16).toNat ∧
    (request 0 [0xD800, 0xDC00, 0xDBFF, 0xD800]).units = unitForms [0x10000] ++ 0xDBFF#16 :: 0xD800#16 :: [] ∧
    (request 0 [0xD800, 0xDC00, 0xDBFF, 0xE000]).units = unitForms [0x10000] ++ 0xDBFF#16 :: 0xE000#16 :: [] ∧
    (request 0 [0xD800, 0xDC00, 0xDC00, 0xD800]).units = unitForms [0x10000] ++ 0xDC00#16 :: [0xD800#16] ∧
    (request 0 [0xD800, 0xDC00, 0xD800]).units = unitForms [0x10000] ++ [0xD800#16] := by decide

theorem witness_Enc16EncodesOrRejectsCodePoints :
    (∀ c ∈ [0xD7FF, 0x10FFFE], Valid c) ∧ (request 0 [0xD7FF, 0x10FFFE]).input = [0xD7FF, 0x10FFFE].map cpLane ∧
    (request 0 [0xD7FF, 0x10FFFE, 0x10FFFF, 0xD800]).input =
      [0xD7FF, 0x10FFFE].map cpLane ++ 0x10FFFF#32 :: [0xD800#32] ∧ 0x10FFFF ≤ (0x10FFFF#32).toInt ∧
    (0xFFFFFFFF#32).toInt < 0 ∧ 0xD800 ≤ (0xDFFF#32).toInt ∧ (0xDFFF#32).toInt ≤ 0xDFFF := by decide

theorem witness_Utf16RoundTrip :
    (∀ c ∈ [0x41, 0x10FFFE], Valid c) ∧ (request 0 [0x41, 0x10FFFE]).input = [0x41, 0x10FFFE].map cpLane ∧
    exec .enc16 (request 0 [0x41, 0x10FFFE]) =
      .next (answered (request 0 [0x41, 0x10FFFE]) (.ok [0x41, 0xDBFF, 0xDFFE])) := ⟨by decide, by decide, rfl⟩

theorem witness_Utf16ConverseRoundTrip :
    exec .dec16 (request 0 [0xDBFF, 0xDFFE]) = .next (answered (request 0 [0xDBFF, 0xDFFE]) (.ok [0x10FFFE])) ∧
    exec .dec16 (request 0 [0xDBFF, 0xDFFF]) = .next (answered (request 0 [0xDBFF, 0xDFFF]) (.ok [0x10FFFF])) ∧
    0x10FFFF#32 ∉ [0x10FFFE#32] ∧ 0x10FFFF#32 ∈ [0x10FFFF#32] ∧
    (request 0 [0xDBFF, 0xDFFF]).units = [0xDBFF#16, 0xDFFF#16] :=
  ⟨rfl, rfl, by decide, by decide, by decide⟩

/-- Sequences of each length at the ends of their ranges, under `FOUR_BYTE_MIN` = 0x80. -/
def someSeqs : List Utf8Seq :=
  [⟨1, 0x7F⟩, ⟨2, 0x80⟩, ⟨3, 0x800⟩, ⟨3, 0xD800⟩, ⟨4, 0x80⟩, ⟨4, 0x1FFFFF⟩]

theorem witness_Dec8DecodesAcceptedSequences :
    (∀ q ∈ someSeqs, q.Accepted .x80) ∧
    (request 0 [0x7F, 0xC2, 0x80, 0xE0, 0xA0, 0x80, 0xED, 0xA0, 0x80, 0xF0, 0x80, 0x82, 0x80, 0xF7, 0xBF, 0xBF,
      0xBF]).bytes = seqBytes someSeqs := by decide

theorem witness_Dec8SucceedsOnlyOnAcceptedSequences :
    exec .dec8 (request 0 [0xF7, 0xBF, 0xBF, 0xBF]) =
      .next (answered (request 0 [0xF7, 0xBF, 0xBF, 0xBF]) (.ok [0x1FFFFF])) := rfl

theorem witness_Dec8RejectsMisplacedBytes :
    (∀ p ∈ [(⟨2, 0x80⟩ : Utf8Seq)], p.Accepted .x80) ∧
    (request 0 [0xC2, 0x80, 0x80]).bytes = seqBytes [⟨2, 0x80⟩] ++ 0x80#8 :: [] ∧
    (request 0 [0xC2, 0x80, 0xF8]).bytes = seqBytes [⟨2, 0x80⟩] ++ 0xF8#8 :: [] ∧
    Utf8Seq.Fits ⟨4, 0⟩ ∧ 0 < 3 ∧ 3 < 4 ∧
    (request 0 [0xC2, 0x80, 0xF0, 0x80, 0x80, 0x7F]).bytes =
      seqBytes [⟨2, 0x80⟩] ++ (Utf8Seq.bytes ⟨4, 0⟩).take 3 ++ 0x7F#8 :: [] ∧
    (request 0 [0xC2, 0x80, 0xF0, 0x80, 0x80, 0xC0]).bytes =
      seqBytes [⟨2, 0x80⟩] ++ (Utf8Seq.bytes ⟨4, 0⟩).take 3 ++ 0xC0#8 :: [] ∧
    (request 0 [0xC2, 0x80, 0xF0, 0x80, 0x80, 0xFF]).bytes =
      seqBytes [⟨2, 0x80⟩] ++ (Utf8Seq.bytes ⟨4, 0⟩).take 3 ++ 0xFF#8 :: [] := by decide

theorem witness_Dec8RejectsOverlongSequences :
    Utf8Seq.Fits ⟨4, 0xFFFF⟩ ∧ 0xFFFF < seqLeast .x10000 4 ∧
    (requestUnder ⟨keySeq, .x10000, none⟩ 0 [0x41, 0xF0, 0x8F, 0xBF, 0xBF, 0x41]).bytes =
      seqBytes [⟨1, 0x41⟩] ++ Utf8Seq.bytes ⟨4, 0xFFFF⟩ ++ [0x41#8] := by decide

theorem witness_Dec8RejectsTruncatedSequence :
    Utf8Seq.Fits ⟨3, 0⟩ ∧ (request 0 [0x41, 0xE0, 0x80]).bytes =
      seqBytes [⟨1, 0x41⟩] ++ (Utf8Seq.bytes ⟨3, 0⟩).take 2 := by decide

theorem witness_OverlongNulIsRejected :
    (request 0 [0xC0, 0x80]).bytes = [0xC0#8, 0x80#8] ∧ (request 0 [0xE0, 0x80, 0x80]).bytes = [0xE0#8, 0x80#8, 0x80#8] ∧
    (requestUnder ⟨keySeq, .x10000, none⟩ 0 [0xF0, 0x80, 0x80, 0x80]).bytes = [0xF0#8, 0x80#8, 0x80#8, 0x80#8] := by
  decide

theorem witness_Enc8EncodesOrRejectsCodePoints :
    (request 0 [0xD800, 0x10FFFE]).input = [0xD800, 0x10FFFE].map cpLane ∧
    (request 0 [0xD800, 0x10FFFE, 0x10FFFF, 0x41]).input =
      [0xD800, 0x10FFFE].map cpLane ++ 0x10FFFF#32 :: [0x41#32] ∧ 0x10FFFF ≤ (0x10FFFF#32).toInt := by decide

theorem witness_Utf8RoundTrip :
    (∀ c ∈ [0xD800, 0x10FFFE], c < 0x10FFFF) ∧ (request 0 [0xD800, 0x10FFFE]).input = [0xD800, 0x10FFFE].map cpLane := by
  decide

theorem witness_Enc8AfterDec16HasNoSurrogate :
    exec .dec16 (request 0 [0xD7FF]) = .next (answered (request 0 [0xD7FF]) (.ok [0xD7FF])) ∧
    exec .enc8 (request 0 [0xD7FF]) = .next (answered (request 0 [0xD7FF]) (.ok [0xED, 0x9F, 0xBF])) ∧
    ([0xED#32, 0x9F#32, 0xBF#32] : List Lane) = [] ++ 0xED#32 :: 0x9F#32 :: [0xBF#32] := ⟨rfl, rfl, rfl⟩

theorem witness_KsxIsAnInvolution :
    (request 0 [0x41]).params.keyTable = keySeq ∧
    exec (.ksx 52) (request 0 [0x41]) = .next (answered (request 0 [0x41]) (.ok [0x25])) := ⟨rfl, rfl⟩

theorem witness_T7decReportsFormatErrorsInOrder :
    (request 0 [0x41]).input.length % 2 = 1 ∧ (request 0 []).input = [] ∧
    (request 0 [0x30, 0x41]).units = [0x30#16] ++ 0x41#16 :: [] ∧ (request 0 [0x30, 0x41]).input.length % 2 = 0 ∧
    IsDigit 0x30#16 ∧ ¬ IsDigit 0x41#16 ∧
    (request 0 [0x31, 0x32, 0x46, 0x67]).units = [0x31#16, 0x32#16, 0x46#16] ++ 0x67#16 :: [] ∧
    IsHex 0x46#16 ∧ ¬ IsHex 0x67#16 := by decide

theorem witness_T7decDecodesEncryptedText :
    (∀ q ∈ [(⟨1, 0x41⟩ : Utf8Seq), ⟨1, 0x42⟩], q.Accepted .x80 ∧ Valid q.value) ∧
    (request 0 [0x39, 0x39, 0x31, 0x43, 0x31, 0x43]).units =
      type7Text 99 (keystreamXor keySeq 99 (seqBytes [⟨1, 0x41⟩, ⟨1, 0x42⟩])) := by decide

theorem witness_T7decIsItsStagesComposed :
    (request 0 [0x30, 0x30, 0x46, 0x35]).units = type7Text 0 [0xF5#8] ∧
    (request 0 [0xC5]).bytes = keystreamXor keySeq 0 [0xF5#8] ∧
    exec .dec8 (request 0 [0xC5]) = .next (answered (request 0 [0xC5]) (.err ⟨.e8Truncated, .dec8, 1, 1⟩)) ∧
    (request 0 [0x30, 0x30, 0x37, 0x31]).units = type7Text 0 [0x71#8] ∧
    (request 0 [0x41]).bytes = keystreamXor keySeq 0 [0x71#8] ∧
    exec .dec8 (request 0 [0x41]) = .next (answered (request 0 [0x41]) (.ok [0x41])) ∧
    exec .enc16 (request 0 [0x41]) = .next (answered (request 0 [0x41]) (.ok [0x41])) :=
  ⟨by decide, by decide, rfl, by decide, by decide, rfl, rfl⟩

theorem witness_T7encEncryptsUtf8Text :
    (∀ c ∈ [0x159, 0x10FFFE], Valid c) ∧ (request 0 [0x159, 0xDBFF, 0xDFFE]).units = unitForms [0x159, 0x10FFFE] := by
  decide

theorem witness_T7encIsItsStagesComposed :
    exec .dec16 (request 0 [0xDC00]) =
      .next (answered (request 0 [0xDC00]) (.err ⟨.e16TrailWithoutLead, .dec16, 0, 0xDC00⟩)) ∧
    exec .dec16 (request 0 [0xDBFF, 0xDFFF]) = .next (answered (request 0 [0xDBFF, 0xDFFF]) (.ok [0x10FFFF])) ∧
    exec .enc8 (request 0 [0x10FFFF]) =
      .next (answered (request 0 [0x10FFFF]) (.err ⟨.ecpRange, .enc8, 0, 0x10FFFF⟩)) ∧
    exec .dec16 (request 0 [0x159]) = .next (answered (request 0 [0x159]) (.ok [0x159])) ∧
    exec .enc8 (request 0 [0x159]) = .next (answered (request 0 [0x159]) (.ok (byteLanes [0xC5#8, 0x99#8]))) :=
  ⟨rfl, rfl, rfl, rfl, rfl⟩

theorem witness_T7encRejectsOffsetAbove99 : 99 < 100 ∧ 127 ≤ 127 := by decide

theorem witness_T7encSucceedsExactlyOnEncodableText :
    (request 0x0636 [0x41]).activity = .inProgress ∧ decode (request 0x0636 [0x41]).cmd = .ok (.t7enc 99) ∧
    Fits (request 0x0636 [0x41]) := ⟨rfl, rfl, fits_unbounded _ rfl⟩

theorem witness_T7encOutputIsType7Text :
    exec (.t7enc 99) (request 0 [0x41]) = .next (answered (request 0 [0x41]) (.ok [0x39, 0x39, 0x31, 0x43])) := rfl

theorem witness_SaltActsModuloTableLength :
    45 + 54 ≤ 99 ∧
    exec (.t7enc 45) (request 0 [0x41]) = .next (answered (request 0 [0x41]) (.ok [0x34, 0x35, 0x31, 0x43])) ∧
    exec (.t7enc (45 + 54)) (request 0 [0x41]) = .next (answered (request 0 [0x41]) (.ok [0x39, 0x39, 0x31, 0x43])) :=
  ⟨by decide, rfl, rfl⟩

theorem witness_NoResponseBeforeARequestCompletes :
    Host.Core.run Sys2Proof.core 3 (hostReset idleBlock) = .next (hostReset idleBlock) ∧
    ∃ t, hostPresent 0x0003 [0xC5] (hostReset idleBlock) = .next t := ⟨rfl, _, rfl⟩

/-- A block that has answered, reset while it works on the next request: no response to read. -/
theorem test_reset_drops_response :
    hostRead idleBlock = some (.ok [5]) ∧ hostRead (request 0x0001 []) = none ∧
    hostRead (hostReset (request 0x0001 [])) = none := ⟨rfl, rfl, rfl⟩

theorem witness_CipherRoundTrip :
    exec (.t7enc 53) (request 0 [0x41, 0x42]) =
      .next (answered (request 0 [0x41, 0x42]) (.ok [0x35, 0x33, 0x32, 0x34, 0x37, 0x32])) ∧
    (requestUnder ⟨keySeq, .x10000, none⟩ 0 [0x35, 0x33, 0x32, 0x34, 0x37, 0x32]).params.keyTable =
      (request 0 [0x41, 0x42]).params.keyTable := ⟨rfl, rfl⟩

end Sys2Proof.Tests
end

/-! SUPPORT. The proofs of 00_scope.md: the state an answered request leaves, what a step and a run of steps keep. -/

namespace Sys2Proof.Machine

open Sys2Proof.Safety

/-! ### The answered state -/

@[simp] theorem answered_params (s : State) (r : Response) : (answered s r).params = s.params := rfl
@[simp] theorem answered_cmd (s : State) (r : Response) : (answered s r).cmd = s.cmd := rfl
@[simp] theorem answered_input (s : State) (r : Response) : (answered s r).input = s.input := rfl
@[simp] theorem answered_activity (s : State) (r : Response) : (answered s r).activity = .idle := rfl
@[simp] theorem answered_resp (s : State) (r : Response) : (answered s r).resp = r := rfl
@[simp] theorem answered_responded (s : State) (r : Response) : (answered s r).responded = true := rfl
@[simp] theorem answered_work (s : State) (r : Response) : (answered s r).work = Work.idle := rfl

theorem succeed_eq_answered (s : State) (out : List Lane) : s.succeed out = answered s (.ok out) := rfl

theorem fail_eq_answered (s : State) (e : ErrRecord) : s.fail e = answered s (.err e) := rfl

/-- The response the end of a body writes (R33, R38). -/
def responseOf : Result → Response
  | .ok w => .ok w.out
  | .error e => .err e

@[simp] theorem responseOf_ok (w : Work) : responseOf (.ok w) = .ok w.out := rfl

@[simp] theorem responseOf_error (e : ErrRecord) : responseOf (.error e) = .err e := rfl

theorem complete_eq_answered (r : Result) (s : State) : complete r s = .next (answered s (responseOf r)) := by
  cases r with
  | ok w => rw [complete_ok, succeed_eq_answered, responseOf_ok]
  | error e => rw [complete_error, fail_eq_answered, responseOf_error]

/-- Every operation answers the request with the response of its body, on every input. -/
theorem exec_eq_answered (i : Instr) (s : State) : exec i s = .next (answered s (responseOf (bodyOf i s))) := by
  rw [exec_eq_complete, complete_eq_answered]

/-! ### What a step keeps -/

/-- A request in progress is answered by the next step: at the port, or by its operation (R4, R70). -/
theorem step_answers {s : State} (h : s.activity = .inProgress) : ∃ r, step s = .next (answered s r) := by
  obtain ⟨hidle, -⟩ | ⟨e, -, hstep⟩ | ⟨i, -, hstep⟩ := step_cases s
  · simp [h] at hidle
  · exact ⟨.err e, by rw [hstep, fail_eq_answered]⟩
  · exact ⟨responseOf (bodyOf i s), by rw [hstep, exec_eq_answered]⟩

theorem step_of_idle {s : State} (h : s.activity = .idle) : step s = .next s := by
  simp [step, portAction_eq_wait.2 h]

/-- The next state of a step is the same idle state, or the request answered. -/
theorem eq_or_answered_of_step {s t : State} (h : step s = .next t) :
    (s.activity = .idle ∧ t = s) ∨ (s.activity = .inProgress ∧ ∃ r, t = answered s r) := by
  cases hact : s.activity with
  | idle => simpa [step_of_idle hact, eq_comm] using h
  | inProgress =>
    obtain ⟨r, hstep⟩ := step_answers hact
    exact .inr ⟨rfl, r, Host.Outcome.next.inj (h.symm.trans hstep)⟩

/-- The fields no step of the block writes, the parameters (R8, R40) and the request registers (R32), agree. -/
def SameRequest (s t : State) : Prop := t.params = s.params ∧ t.cmd = s.cmd ∧ t.input = s.input

theorem SameRequest.refl (s : State) : SameRequest s s := ⟨rfl, rfl, rfl⟩

theorem SameRequest.trans {s t u : State} (hst : SameRequest s t) (htu : SameRequest t u) : SameRequest s u := by
  obtain ⟨hp, hc, hi⟩ := hst
  obtain ⟨hp', hc', hi'⟩ := htu
  exact ⟨hp'.trans hp, hc'.trans hc, hi'.trans hi⟩

theorem sameRequest_answered (s : State) (r : Response) : SameRequest s (answered s r) := ⟨rfl, rfl, rfl⟩

theorem sameRequest_of_step {s t : State} (h : step s = .next t) : SameRequest s t := by
  obtain ⟨-, rfl⟩ | ⟨-, r, rfl⟩ := eq_or_answered_of_step h
  · exact .refl t
  · exact sameRequest_answered s r

/-! ### Runs -/

theorem run_zero_eq_next {s t : State} : Host.Core.run Sys2Proof.core 0 s = .next t ↔ s = t :=
  ⟨fun h => Host.Outcome.next.inj h, fun h => congrArg _ h⟩

/-- A run of `k + 1` steps is one step and a run of `k` from the state it leaves. -/
theorem run_succ_eq_next {k : Nat} {s t : State} :
    Host.Core.run Sys2Proof.core (k + 1) s = .next t ↔
      ∃ u, step s = .next u ∧ Host.Core.run Sys2Proof.core k u = .next t := by
  have hcore : Sys2Proof.core.step s = step s := rfl
  simp only [Host.Core.run, hcore]
  cases step s <;> simp

/-- What every step keeps, every run of steps keeps. -/
theorem run_keeps {P : State → Prop} (hkeeps : ∀ s t, P s → step s = .next t → P t) {k : Nat} {s t : State}
    (hs : P s) (hrun : Host.Core.run Sys2Proof.core k s = .next t) : P t := by
  induction k generalizing s with
  | zero => exact run_zero_eq_next.1 hrun ▸ hs
  | succ k ih =>
    obtain ⟨u, hstep, hrest⟩ := run_succ_eq_next.1 hrun
    exact ih (hkeeps s u hs hstep) hrest

theorem sameRequest_of_run {k : Nat} {s t : State} (h : Host.Core.run Sys2Proof.core k s = .next t) :
    SameRequest s t :=
  run_keeps (P := SameRequest s) (fun _ _ hs hstep => hs.trans (sameRequest_of_step hstep)) (.refl s) h

/-! ### The statements -/

/-- Settles O11: the port's rejection and both ends of an operation are answered states. -/
theorem everyRequestIsAnsweredInOneStep : Obligations.EveryRequestIsAnsweredInOneStep :=
  fun _ h => step_answers h

/-- Settles O12, by induction on the number of steps (`run_keeps`). -/
theorem parametersAndRequestAreNeverWritten : Obligations.ParametersAndRequestAreNeverWritten :=
  fun _ _ _ h => sameRequest_of_run h

end Sys2Proof.Machine

/-! SUPPORT. The proofs of 10_state.md: the idle block after a reset, the invariant there, the lanes of the input. -/

namespace Sys2Proof.Machine

open Sys2Proof.Safety

/-! ### The idle block -/

/-- However long the idle block waits, it stays in the state it is in (R242; notes/assumptions/9.md). -/
theorem eq_of_run_of_idle {k : Nat} {s t : State} (hidle : s.activity = .idle)
    (hrun : Host.Core.run Sys2Proof.core k s = .next t) : t = s := by
  refine run_keeps (P := fun u => u = s) ?_ rfl hrun
  rintro _ v rfl hstep
  exact Host.Outcome.next.inj (hstep.symm.trans (step_of_idle hidle))

/-- A reset takes away the response there was to read (R43, R243). -/
@[simp] theorem hostRead_hostReset (s : State) : hostRead (hostReset s) = none :=
  hostRead_eq_none.2 (.inr (hostReset_responded s))

/-- A presented request is in progress (R250). -/
theorem activity_of_hostPresent {c : Descriptor} {a : List Lane} {s t : State} (h : hostPresent c a s = .next t) :
    t.activity = .inProgress := by
  obtain ⟨-, rfl⟩ := hostPresent_eq_next.1 h
  rfl

/-- The host reads the response the request was answered with (R38). -/
@[simp] theorem hostRead_answered (s : State) (r : Response) : hostRead (answered s r) = some r :=
  hostRead_eq_some.2 ⟨answered_activity s r, answered_responded s r, answered_resp s r⟩

/-! ### The input's lanes -/

/-- R35: an input of unit lanes is read as those units. -/
theorem units_eq_of_input_eq {s : State} {us : List CodeUnit} (h : s.input = unitLanes us) : s.units = us := by
  rw [State.units, h, unitLanes_eq, map_laneUnit_unitLane]

/-- R35: an input of byte lanes is read as those bytes. -/
theorem bytes_eq_of_input_eq {s : State} {bs : List Byte} (h : s.input = byteLanes bs) : s.bytes = bs := by
  rw [State.bytes, h, byteLanes_eq, map_laneByte_byteLane]

/-! ### The statements -/

/-- Settles O54. A waiting step leaves the block as the reset left it, and a presented request is in progress, so that
there is no response to read before its step writes one. -/
theorem noResponseBeforeARequestCompletes : Obligations.NoResponseBeforeARequestCompletes := by
  refine ⟨hostRead_eq_none.2 (.inr State.reset_responded), fun s => ⟨fun k t hrun => ?_, fun c a t hpresent => ?_⟩⟩
  · rw [eq_of_run_of_idle (hostReset_activity s) hrun, hostRead_hostReset]
  · have hbusy : t.activity = .inProgress := activity_of_hostPresent hpresent
    obtain ⟨r, hstep⟩ := step_answers hbusy
    exact ⟨hostRead_eq_none.2 (.inl hbusy), r, hstep, hostRead_answered t r⟩

/-- Settles O16: the reset response is the empty output, which has no lane to bound. -/
theorem invariantHoldsAfterReset : Obligations.InvariantHoldsAfterReset := by
  have hresp : LegalResponse (.ok []) := fun l hl => absurd hl List.not_mem_nil
  exact ⟨hresp, rfl⟩

/-- Settles O24: the low bits of a zero-extended lane are the lane (`laneUnit_unitLane`, `laneByte_byteLane`). -/
theorem lanesKeepTheirValues : Obligations.LanesKeepTheirValues :=
  fun _ _ _ => ⟨units_eq_of_input_eq, bytes_eq_of_input_eq, rfl⟩

end Sys2Proof.Machine

/-! SUPPORT. The proofs of 20_memory.md: how the stages of a body compose, what a response depends on, the errors a
body can raise, and the lengths of what it writes. -/

namespace Sys2Proof.Machine

open Sys2Proof.Safety

/-! ### Stages in sequence -/

/-- A sequence of two stages succeeds when the second succeeds on what the first left. -/
theorem bind_eq_ok {r : Result} {f : Work → Result} {w : Work} :
    (r >>= f) = .ok w ↔ ∃ v, r = .ok v ∧ f v = .ok w := by
  cases r <;> simp [bind, Except.bind]

/-- A sequence of two stages fails in the first, or in the second on what the first left (R179). -/
theorem bind_eq_error {r : Result} {f : Work → Result} {e : ErrRecord} :
    (r >>= f) = .error e ↔ r = .error e ∨ ∃ v, r = .ok v ∧ f v = .error e := by
  cases r <;> simp [bind, Except.bind]

theorem ok_bind (v : Work) (f : Work → Result) : ((.ok v : Result) >>= f) = f v := rfl

/-! ### The answer of an operation -/

theorem answered_inj {s : State} {a b : Response} : answered s a = answered s b ↔ a = b :=
  ⟨fun h => congrArg State.resp h, fun h => congrArg (answered s) h⟩

theorem responseOf_eq_ok {r : Result} {out : List Lane} : responseOf r = .ok out ↔ ∃ w, r = .ok w ∧ w.out = out := by
  cases r <;> simp

theorem responseOf_eq_err {r : Result} {e : ErrRecord} : responseOf r = .err e ↔ r = .error e := by
  cases r <;> simp

/-- An operation answers an output exactly when its body ends with that output. -/
theorem exec_eq_answered_ok {i : Instr} {s : State} {out : List Lane} :
    exec i s = .next (answered s (.ok out)) ↔ ∃ w, bodyOf i s = .ok w ∧ w.out = out := by
  rw [exec_eq_answered, Host.Outcome.next.injEq, answered_inj, responseOf_eq_ok]

/-- An operation answers an error exactly when its body raises it. -/
theorem exec_eq_answered_err {i : Instr} {s : State} {e : ErrRecord} :
    exec i s = .next (answered s (.err e)) ↔ bodyOf i s = .error e := by
  rw [exec_eq_answered, Host.Outcome.next.injEq, answered_inj, responseOf_eq_err]

theorem step_of_reject {s : State} {e : ErrRecord} (h : portAction s = .reject e) :
    step s = .next (answered s (.err e)) := by
  simp [step, h, fail_eq_answered]

theorem step_of_perform {s : State} {i : Instr} (h : portAction s = .perform i) : step s = exec i s := by
  simp [step, h]

/-! ### What a loop reads of the working registers (R36, R241)

A loop reads its index, its output and its stage, and a decoder also the registers of the sequence in progress. A run on
the working registers with all the others set to their idle values is the same run, with the others idle at its end. -/

section LoopRegisters

variable {α : Type}

/-- The registers every loop reads; the others idle. -/
def loopRegs (w : Work) : Work := { Work.idle with i := w.i, out := w.out, stage := w.stage }

/-- The registers the loop of DEC16 reads; the others idle. -/
def dec16Regs (w : Work) : Work := { loopRegs w with pend := w.pend }

/-- The registers the loop of DEC8 reads; the others idle. -/
def dec8Regs (w : Work) : Work := { loopRegs w with acc := w.acc, rem := w.rem, tot := w.tot }

/-- What commutes with every element commutes with the loop. -/
theorem scan_map {f : Work → α → Result} {π : Work → Work} (h : ∀ w a, f (π w) a = (f w a).map π) (as : List α)
    (w : Work) : scan f as (π w) = (scan f as w).map π := by
  induction as generalizing w with
  | nil => rfl
  | cons a as ih =>
    rw [scan_cons, scan_cons, h]
    cases f w a with
    | ok v => exact ih v
    | error e => rfl

theorem dec16Elem_dec16Regs (w : Work) (u : CodeUnit) :
    dec16Elem (dec16Regs w) u = (dec16Elem w u).map dec16Regs := by
  have hp : (dec16Regs w).pend = w.pend := rfl
  unfold dec16Elem
  rw [hp]
  cases unitClass u <;> cases w.pend <;> rfl

theorem dec16End_dec16Regs (w : Work) : dec16End (dec16Regs w) = (dec16End w).map dec16Regs := by
  have hp : (dec16Regs w).pend = w.pend := rfl
  unfold dec16End
  rw [hp]
  cases w.pend <;> rfl

theorem enc16Elem_loopRegs (w : Work) (cp : CodePoint) :
    enc16Elem (loopRegs w) cp = (enc16Elem w cp).map loopRegs := by
  unfold enc16Elem
  cases codePointClass cp <;> rfl

theorem dec8Complete_dec8Regs (m : FourByteMin) (w : Work) (v : BitVec 21) :
    dec8Complete m (dec8Regs w) v = (dec8Complete m w v).map dec8Regs := by
  have ht : (dec8Regs w).tot = w.tot := rfl
  unfold dec8Complete
  rw [ht]
  cases shortestOk m v w.tot <;> rfl

theorem dec8Elem_dec8Regs (m : FourByteMin) (w : Work) (b : Byte) :
    dec8Elem m (dec8Regs w) b = (dec8Elem m w b).map dec8Regs := by
  have ha : (dec8Regs w).acc = w.acc := rfl
  have hr : (dec8Regs w).rem = w.rem := rfl
  unfold dec8Elem
  rw [ha, hr]
  cases byteClass b with
  | single => cases w.acc <;> rfl
  | lead p r t => cases w.acc <;> rfl
  | invalid => rfl
  | continuation =>
    cases w.acc with
    | none => rfl
    | some a =>
      dsimp only
      split
      · exact dec8Complete_dec8Regs m { w with acc := some (foldByte a b), rem := w.rem - 1 } (foldByte a b)
      · rfl

theorem dec8End_dec8Regs (w : Work) : dec8End (dec8Regs w) = (dec8End w).map dec8Regs := by
  have hr : (dec8Regs w).rem = w.rem := rfl
  unfold dec8End
  rw [hr]
  split <;> rfl

theorem enc8Elem_loopRegs (w : Work) (cp : CodePoint) : enc8Elem (loopRegs w) cp = (enc8Elem w cp).map loopRegs := by
  unfold enc8Elem
  split <;> rfl

theorem validateElem_loopRegs (w : Work) (u : CodeUnit) :
    validateElem (loopRegs w) u = (validateElem w u).map loopRegs := by
  have hi : (loopRegs w).i = w.i := rfl
  unfold validateElem
  rw [hi]
  split <;> split <;> rfl

end LoopRegisters

/-! ### The response of a stage does not depend on the working registers it starts from (R42, R71) -/

theorem responseOf_map {π : Work → Work} (hπ : ∀ w, (π w).out = w.out) (r : Result) :
    responseOf (r.map π) = responseOf r := by
  cases r with
  | ok w => exact congrArg Response.ok (hπ w)
  | error e => rfl

/-- Two runs of a body that start from working registers that agree where the body reads them get one response. -/
theorem responseOf_congr {f : Work → Result} {π : Work → Work} (hout : ∀ w, (π w).out = w.out)
    (hf : ∀ w, f (π w) = (f w).map π) {v w : Work} (h : π v = π w) : responseOf (f v) = responseOf (f w) := by
  rw [← responseOf_map hout (f v), ← hf v, h, hf w, responseOf_map hout]

/-- Stages in sequence get one response when each does on equal outputs of the one before. -/
theorem responseOf_bind_congr {r r' : Result} {f g : Work → Result} (hr : responseOf r = responseOf r')
    (hf : ∀ v w, v.out = w.out → responseOf (f v) = responseOf (g w)) :
    responseOf (r >>= f) = responseOf (r' >>= g) := by
  cases r <;> cases r' <;> simp only [responseOf_ok, responseOf_error, reduceCtorEq, Response.ok.injEq] at hr
  · exact hr
  · exact hf _ _ hr

theorem dec16_response (us : List CodeUnit) (v w : Work) : responseOf (dec16 us v) = responseOf (dec16 us w) := by
  refine responseOf_congr (f := fun w => scan dec16Elem us w >>= dec16End) (π := dec16Regs) (fun _ => rfl)
    (fun x => ?_) rfl
  simp only [scan_map dec16Elem_dec16Regs]
  cases scan dec16Elem us x with
  | ok y => exact dec16End_dec16Regs y
  | error e => rfl

theorem enc16_response (cps : List CodePoint) (v w : Work) : responseOf (enc16 cps v) = responseOf (enc16 cps w) :=
  responseOf_congr (f := scan enc16Elem cps) (π := loopRegs) (fun _ => rfl) (scan_map enc16Elem_loopRegs cps) rfl

theorem dec8_response (m : FourByteMin) (bs : List Byte) (v w : Work) :
    responseOf (dec8 m bs v) = responseOf (dec8 m bs w) := by
  refine responseOf_congr (f := fun w => scan (dec8Elem m) bs w >>= dec8End) (π := dec8Regs) (fun _ => rfl)
    (fun x => ?_) rfl
  simp only [scan_map (dec8Elem_dec8Regs m)]
  cases scan (dec8Elem m) bs x with
  | ok y => exact dec8End_dec8Regs y
  | error e => rfl

theorem enc8_response (cps : List CodePoint) (v w : Work) : responseOf (enc8 cps v) = responseOf (enc8 cps w) :=
  responseOf_congr (f := scan enc8Elem cps) (π := loopRegs) (fun _ => rfl) (scan_map enc8Elem_loopRegs cps) rfl

theorem ksx_response (k : KeyTable) (o : Nat) (bs : List Byte) (v w : Work) :
    responseOf (ksx k o bs v) = responseOf (ksx k o bs w) := by
  simp [ksx_eq]

theorem format_response (o : Nat) (c : List Byte) (v w : Work) :
    responseOf (format o c v) = responseOf (format o c w) := by
  simp [format_eq]

theorem argCheck_response (o : Nat) (v w : Work) : responseOf (argCheck o v) = responseOf (argCheck o w) := by
  unfold argCheck
  split <;> rfl

theorem validate_response (t : List CodeUnit) (v w : Work) :
    responseOf (validate t v) = responseOf (validate t w) := by
  unfold validate
  dsimp only
  split
  · rfl
  · split
    · rfl
    · exact responseOf_congr (f := scan validateElem t) (π := loopRegs) (fun _ => rfl)
        (scan_map validateElem_loopRegs t) rfl

/-- The PARSE stage never fails: the salt of the first two units, a byte for each pair of the rest (R177, R178). -/
theorem parse_eq (t : List CodeUnit) (w : Work) :
    parse t w = .ok { enter .parse w with
      i := (hexPairs (t.drop 2)).length, salt := saltValue (t.getD 0 0) (t.getD 1 0),
      raw := (hexPairs (t.drop 2)).map fun p => hashByte p.1 p.2 } := by
  simp [parse, scan_parse]

theorem t7dec_response (p : Params) (t : List CodeUnit) (v w : Work) :
    responseOf (t7dec p t v) = responseOf (t7dec p t w) := by
  unfold t7dec
  refine responseOf_bind_congr (validate_response t _ _) fun v w _ => ?_
  simp only [parse_eq, ksx_eq, ok_bind]
  refine responseOf_bind_congr (dec8_response p.fourByteMin _ _ _) fun v w hout => ?_
  rw [hout]
  exact enc16_response w.out _ _

theorem t7enc_response (k : KeyTable) (o : Nat) (p : List CodeUnit) (v w : Work) :
    responseOf (t7enc k o p v) = responseOf (t7enc k o p w) := by
  unfold t7enc
  refine responseOf_bind_congr (argCheck_response o _ _) fun v w _ => ?_
  refine responseOf_bind_congr (dec16_response p _ _) fun v w hout => ?_
  rw [hout]
  refine responseOf_bind_congr (enc8_response w.out _ _) fun v w hout => ?_
  rw [hout]
  simp only [ksx_eq, ok_bind]
  exact format_response o _ _ _

/-- The response of an operation is a function of the parameters and the input (R71). -/
theorem bodyOf_response {s t : State} (hparams : s.params = t.params) (hinput : s.input = t.input) (i : Instr) :
    responseOf (bodyOf i s) = responseOf (bodyOf i t) := by
  have hunits : s.units = t.units := by rw [State.units, State.units, hinput]
  have hbytes : s.bytes = t.bytes := by rw [State.bytes, State.bytes, hinput]
  have hcps : s.codePoints = t.codePoints := hinput
  cases i with
  | dec16 => simpa [bodyOf, hunits] using dec16_response t.units s.work t.work
  | enc16 => simpa [bodyOf, hcps] using enc16_response t.codePoints s.work t.work
  | dec8 => simpa [bodyOf, hparams, hbytes] using dec8_response t.params.fourByteMin t.bytes s.work t.work
  | enc8 => simpa [bodyOf, hcps] using enc8_response t.codePoints s.work t.work
  | t7dec => simpa [bodyOf, hparams, hunits] using t7dec_response t.params t.units s.work t.work
  | t7enc o => simpa [bodyOf, hparams, hunits] using t7enc_response t.params.keyTable o t.units s.work t.work
  | ksx o => simpa [bodyOf, hparams, hbytes] using ksx_response t.params.keyTable o t.bytes s.work t.work

/-- What stands at the port is a function of the activity, the parameters and the request. -/
theorem portAction_congr {s t : State} (hact : s.activity = t.activity) (hparams : s.params = t.params)
    (hcmd : s.cmd = t.cmd) (hinput : s.input = t.input) : portAction s = portAction t := by
  unfold portAction State.n
  rw [hact, hparams, hcmd, hinput]

/-- Settles O13. Both requests meet the same port action: a rejection writes one record, and the body of an operation
ends in one response (`bodyOf_response`). -/
theorem responseDependsOnRequestAndParametersOnly : Obligations.ResponseDependsOnRequestAndParametersOnly := by
  intro s t hs ht hparams hcmd hinput
  have hport : portAction s = portAction t := portAction_congr (hs.trans ht.symm) hparams hcmd hinput
  cases hp : portAction t with
  | wait => simp [portAction_eq_wait.1 hp] at ht
  | reject e => exact ⟨.err e, step_of_reject (hport.trans hp), step_of_reject hp⟩
  | perform i =>
    refine ⟨responseOf (bodyOf i t), ?_, ?_⟩
    · rw [step_of_perform (hport.trans hp), exec_eq_answered, bodyOf_response hparams hinput]
    · rw [step_of_perform hp, exec_eq_answered]

/-- Settles O14. The answered state differs from the idle one in its request, response and working registers only, and
presenting the second request writes the request again; then O13. -/
theorem orderOfRequestsChangesNoResponse : Obligations.OrderOfRequestsChangesNoResponse := by
  intro s s₁ s₂ t₁ t₂ c d a b hidle hs₁ hs₂ ht₁ ht₂
  obtain ⟨-, rfl⟩ := hostPresent_eq_next.1 hs₁
  obtain ⟨hp₂, -, -⟩ := sameRequest_of_step hs₂
  obtain ⟨-, rfl⟩ := hostPresent_eq_next.1 ht₁
  obtain ⟨r, hu, ht⟩ := responseDependsOnRequestAndParametersOnly
    { s with cmd := d, input := b, activity := .inProgress } { s₂ with cmd := d, input := b, activity := .inProgress }
    rfl rfl hp₂.symm rfl rfl
  have hans : t₂ = answered _ r := Host.Outcome.next.inj (ht₂.symm.trans ht)
  exact ⟨_, _, hostPresent_eq_next.2 ⟨hidle, rfl⟩, hu, by rw [hans, answered_resp, answered_resp]⟩

/-! ### The errors a body can raise -/

/-- Every error the body ends with satisfies `P`. -/
def RaisesOnly (P : ErrRecord → Prop) (r : Result) : Prop := ∀ e, r = .error e → P e

section RaisesOnly

variable {P : ErrRecord → Prop}

@[simp] theorem raisesOnly_ok (w : Work) : RaisesOnly P (.ok w) := fun _ h => nomatch h

@[simp] theorem raisesOnly_error {e : ErrRecord} : RaisesOnly P (.error e) ↔ P e := by
  simp [RaisesOnly]

theorem raisesOnly_bind {r : Result} {f : Work → Result} (hr : RaisesOnly P r) (hf : ∀ w, RaisesOnly P (f w)) :
    RaisesOnly P (r >>= f) := by
  intro e h
  obtain h | ⟨v, -, h⟩ := bind_eq_error.1 h
  · exact hr e h
  · exact hf v e h

theorem raisesOnly_scan {α : Type} {f : Work → α → Result} (hf : ∀ w a, RaisesOnly P (f w a)) (as : List α) (w : Work) :
    RaisesOnly P (scan f as w) := by
  intro e h
  obtain ⟨_, bad, _, w', -, -, hbad⟩ := scan_error_iff.1 h
  exact hf w' bad e hbad

end RaisesOnly

/-- A record an operation may raise: its code is neither the reserved E7_HEX (R178) nor one of the two of the port
checks (R212). -/
def OperationError (e : ErrRecord) : Prop := e.code ≠ .e7Hex ∧ e.code ≠ .eCapacity ∧ e.code ≠ .eIllegalOp

theorem dec16_raises (us : List CodeUnit) (w : Work) : RaisesOnly OperationError (dec16 us w) := by
  refine raisesOnly_bind (raisesOnly_scan (fun w u => ?_) us _) fun w => ?_
  · unfold dec16Elem
    cases unitClass u <;> cases w.pend <;> simp [OperationError]
  · unfold dec16End
    cases w.pend <;> simp [OperationError]

theorem enc16_raises (cps : List CodePoint) (w : Work) : RaisesOnly OperationError (enc16 cps w) := by
  refine raisesOnly_scan (fun w cp e h => ?_) cps _
  obtain ⟨-, rfl⟩ | ⟨-, rfl⟩ := enc16Elem_error_iff.1 h <;> simp [OperationError]

theorem dec8Complete_raises (m : FourByteMin) (w : Work) (v : BitVec 21) :
    RaisesOnly OperationError (dec8Complete m w v) := by
  unfold dec8Complete
  split <;> simp [OperationError]

theorem dec8_raises (m : FourByteMin) (bs : List Byte) (w : Work) : RaisesOnly OperationError (dec8 m bs w) := by
  refine raisesOnly_bind (raisesOnly_scan (fun w b => ?_) bs _) fun w => ?_
  · unfold dec8Elem
    split
    case h_4 =>
      dsimp only
      split
      · exact dec8Complete_raises m _ _
      · exact raisesOnly_ok _
    all_goals simp [OperationError]
  · unfold dec8End
    split <;> simp [OperationError]

theorem enc8_raises (cps : List CodePoint) (w : Work) : RaisesOnly OperationError (enc8 cps w) := by
  refine raisesOnly_scan (fun w cp e h => ?_) cps _
  obtain ⟨-, rfl⟩ := enc8Elem_error_iff.1 h
  simp [OperationError]

theorem ksx_raises (k : KeyTable) (o : Nat) (bs : List Byte) (w : Work) : RaisesOnly OperationError (ksx k o bs w) := by
  rw [ksx_eq]
  exact raisesOnly_ok _

theorem validate_raises (t : List CodeUnit) (w : Work) : RaisesOnly OperationError (validate t w) := by
  unfold validate
  dsimp only
  split
  · simp [OperationError]
  · split
    · simp [OperationError]
    · refine raisesOnly_scan (fun w u => ?_) t _
      unfold validateElem
      split <;> split <;> simp [OperationError]

theorem parse_raises (t : List CodeUnit) (w : Work) : RaisesOnly OperationError (parse t w) := by
  rw [parse_eq]
  exact raisesOnly_ok _

theorem argCheck_raises (o : Nat) (w : Work) : RaisesOnly OperationError (argCheck o w) := by
  unfold argCheck
  split <;> simp [OperationError]

theorem format_raises (o : Nat) (c : List Byte) (w : Work) : RaisesOnly OperationError (format o c w) := by
  rw [format_eq]
  exact raisesOnly_ok _

theorem t7dec_raises (p : Params) (t : List CodeUnit) (w : Work) : RaisesOnly OperationError (t7dec p t w) :=
  raisesOnly_bind (validate_raises t _) fun _ => raisesOnly_bind (parse_raises t _) fun _ =>
    raisesOnly_bind (ksx_raises _ _ _ _) fun _ => raisesOnly_bind (dec8_raises _ _ _) fun _ => enc16_raises _ _

theorem t7enc_raises (k : KeyTable) (o : Nat) (p : List CodeUnit) (w : Work) :
    RaisesOnly OperationError (t7enc k o p w) :=
  raisesOnly_bind (argCheck_raises o _) fun _ => raisesOnly_bind (dec16_raises p _) fun _ =>
    raisesOnly_bind (enc8_raises _ _) fun _ => raisesOnly_bind (ksx_raises _ _ _ _) fun _ => format_raises _ _ _

/-- No operation raises the code of a port check, nor E7_HEX. -/
theorem bodyOf_raises (i : Instr) (s : State) : RaisesOnly OperationError (bodyOf i s) := by
  cases i with
  | dec16 => exact dec16_raises _ _
  | enc16 => exact enc16_raises _ _
  | dec8 => exact dec8_raises _ _ _
  | enc8 => exact enc8_raises _ _
  | t7dec => exact t7dec_raises _ _ _
  | t7enc o => exact t7enc_raises _ _ _ _
  | ksx o => exact ksx_raises _ _ _ _

/-! ### The capacity check -/

/-- Below 2³¹ the value field holds the number (R213). -/
theorem natValue_toNat (c : Byte) {n : Nat} (h : n < 2 ^ 31) : (natValue c n).toNat = n := by
  rw [natValue, if_pos h, BitVec.toNat_ofNat, Nat.mod_eq_of_lt (by omega)]

/-- Settles O10. The port rejects exactly the long input (`portAction_eq_reject`), and no operation raises E_CAPACITY
(`bodyOf_raises`). -/
theorem capacityFailsExactlyOnLongInput : Obligations.CapacityFailsExactlyOnLongInput := by
  intro s i hs hd
  refine ⟨fun m hm hlong => ?_, fun e he hcode => ?_⟩
  · have hport : portAction s = .reject (capacityError m s.n) :=
      portAction_eq_reject.2 ⟨hs, .inr ⟨i, m, hd, hm, hlong, rfl⟩⟩
    exact ⟨natValue ErrCode.eCapacity.code m, natValue_toNat _, step_of_reject hport⟩
  · cases hp : portAction s with
    | wait => simp [portAction_eq_wait.1 hp] at hs
    | reject e' =>
      obtain ⟨-, ⟨r, hr, -⟩ | ⟨_, m, -, hm, hlong, -⟩⟩ := portAction_eq_reject.1 hp
      · simp [hd] at hr
      · exact ⟨m, hm, hlong⟩
    | perform j =>
      rw [step_of_perform hp, exec_eq_answered_err] at he
      obtain ⟨-, hcap, -⟩ := bodyOf_raises j s e he
      exact absurd hcode hcap

/-! ### What a loop appends (R62) -/

/-- A loop appends no more than its elements do one by one. -/
theorem scan_out_length_le {α : Type} {f : Work → α → Result} {g : α → Nat}
    (hf : ∀ w w' a, f w a = .ok w' → w'.out.length ≤ w.out.length + g a) {as : List α} {w w' : Work}
    (h : scan f as w = .ok w') : w'.out.length ≤ w.out.length + (as.map g).sum := by
  induction as generalizing w with
  | nil => simp [Except.ok.inj h]
  | cons a as ih =>
    cases ha : f w a with
    | error e => simp [scan_cons_error ha] at h
    | ok v =>
      rw [scan_cons_ok ha] at h
      have hhead := hf w v a ha
      have htail := ih h
      rw [List.map_cons, List.sum_cons]
      omega

/-- A loop that appends at most `k` lanes an element appends at most `k` times its length. -/
theorem scan_out_length_le_mul {α : Type} {f : Work → α → Result} {k : Nat}
    (hf : ∀ w w' a, f w a = .ok w' → w'.out.length ≤ w.out.length + k) {as : List α} {w w' : Work}
    (h : scan f as w = .ok w') : w'.out.length ≤ w.out.length + k * as.length := by
  simpa [Nat.mul_comm] using scan_out_length_le (g := fun _ => k) hf h

/-- A loop whose every element moves on by one ends at its length (R39). -/
theorem scan_index {α : Type} {f : Work → α → Result} (hf : ∀ w w' a, f w a = .ok w' → w'.i = w.i + 1) {as : List α}
    {w w' : Work} (h : scan f as w = .ok w') : w'.i = w.i + as.length := by
  induction as generalizing w with
  | nil => simp [Except.ok.inj h]
  | cons a as ih =>
    cases ha : f w a with
    | error e => simp [scan_cons_error ha] at h
    | ok v =>
      rw [scan_cons_ok ha] at h
      rw [ih h, hf w v a ha, List.length_cons]
      omega

/-! ### DEC16 -/

theorem dec16End_eq_ok {w w' : Work} : dec16End w = .ok w' ↔ w.pend = none ∧ w' = w := by
  cases hp : w.pend <;> simp [dec16End, hp, eq_comm]

/-- With nothing pending, a loop of DEC16 that ends with nothing pending begins with a non-surrogate, or with a pair
(R120 to R122). -/
theorem scan_dec16_cons_cases {u : CodeUnit} {us : List CodeUnit} {w w' : Work} (hw : w.pend = none)
    (h : scan dec16Elem (u :: us) w = .ok w') (hw' : w'.pend = none) :
    (¬ IsSurrogate u.toNat ∧ scan dec16Elem us (advance (emit [unitLane u] w)) = .ok w') ∨
    ∃ v vs w₂, us = v :: vs ∧ IsLead u ∧ IsTrail v ∧ w₂.pend = none ∧ w₂.out = w.out ++ [pairCodePoint (pendingOf u) v] ∧
      scan dec16Elem vs w₂ = .ok w' := by
  cases hu : dec16Elem w u with
  | error e => simp [scan_cons_error hu] at h
  | ok w₁ =>
    rw [scan_cons_ok hu] at h
    obtain ⟨hlead, -, rfl⟩ | ⟨p, -, hp, -⟩ | ⟨hns, -, rfl⟩ := dec16Elem_ok_iff.1 hu
    · right
      cases us with
      | nil => simp [← Except.ok.inj h] at hw'
      | cons v vs =>
        cases hv : dec16Elem (advance { w with pend := some (pendingOf u) }) v with
        | error e => simp [scan_cons_error hv] at h
        | ok w₂ =>
          rw [scan_cons_ok hv] at h
          obtain ⟨-, hp, -⟩ | ⟨p, htrail, hp, rfl⟩ | ⟨-, hp, -⟩ := dec16Elem_ok_iff.1 hv
          · simp at hp
          · obtain rfl : pendingOf u = p := by simpa using hp
            exact ⟨v, vs, _, rfl, hlead, htrail, rfl, rfl, h⟩
          · simp at hp
    · simp [hw] at hp
    · exact .inl ⟨hns, h⟩

/-- The converse of `scan_dec16_unitForms`: a loop of DEC16 with nothing pending at either end ran over the units and
pairs of some code points, and wrote these (R125). -/
theorem unitForms_of_scan_dec16 : ∀ {us : List CodeUnit} {w w' : Work}, w.pend = none →
    scan dec16Elem us w = .ok w' → w'.pend = none →
    ∃ cps : List Nat, (∀ c ∈ cps, HasUnits c) ∧ us = unitForms cps ∧ w'.out = w.out ++ cps.map cpLane
  | [], w, w', _, h, _ => ⟨[], by simp, rfl, by simp [Except.ok.inj h]⟩
  | u :: us, w, w', hw, h, hw' => by
    obtain ⟨hns, htail⟩ | ⟨v, vs, w₂, rfl, hu, hv, hw₂, hout, htail⟩ := scan_dec16_cons_cases hw h hw'
    · obtain ⟨cps, hcps, rfl, hwrote⟩ := unitForms_of_scan_dec16 (by exact hw) htail hw'
      have hlt := u.isLt
      refine ⟨u.toNat :: cps, List.forall_mem_cons.2 ⟨⟨by omega, hns⟩, hcps⟩, ?_, ?_⟩
      · simp [unitForms, unitForm_of_nonSurrogate]
      · simp [hwrote, unitLane_eq, cpLane]
    · obtain ⟨cps, hcps, rfl, hwrote⟩ := unitForms_of_scan_dec16 hw₂ htail hw'
      have hpair := pairCodePoint_toNat hu hv
      have hform := unitForm_of_pair hu hv
      rw [← hpair] at hform
      have hunits : HasUnits (pairCodePoint (pendingOf u) v).toNat := by
        obtain ⟨hu₁, hu₂⟩ := hu
        obtain ⟨hv₁, hv₂⟩ := hv
        rw [hpair, HasUnits, IsSurrogate]
        omega
      refine ⟨(pairCodePoint (pendingOf u) v).toNat :: cps, List.forall_mem_cons.2 ⟨hunits, hcps⟩, ?_, ?_⟩
      · simp [unitForms, hform]
      · simp [hwrote, hout, cpLane_toNat_self]

/-- DEC16 succeeds on units and pairs only, and writes the code points they stand for (R125). -/
theorem unitForms_of_dec16 {us : List CodeUnit} {w w' : Work} (h : dec16 us w = .ok w') :
    ∃ cps : List Nat, (∀ c ∈ cps, HasUnits c) ∧ us = unitForms cps ∧ w'.out = cps.map cpLane := by
  obtain ⟨v, hscan, hend⟩ := bind_eq_ok.1 h
  obtain ⟨hpend, rfl⟩ := dec16End_eq_ok.1 hend
  exact unitForms_of_scan_dec16 rfl hscan hpend

theorem length_le_unitForms (cps : List Nat) : cps.length ≤ (unitForms cps).length := by
  induction cps with
  | nil => simp
  | cons c cps ih =>
    have hone : 1 ≤ (unitForm c).length := by unfold unitForm; split <;> simp
    simp only [unitForms, List.flatMap_cons, List.length_append, List.length_cons] at ih ⊢
    omega

theorem dec16_out_length_le {us : List CodeUnit} {w w' : Work} (h : dec16 us w = .ok w') :
    w'.out.length ≤ us.length := by
  obtain ⟨cps, -, rfl, hout⟩ := unitForms_of_dec16 h
  rw [hout, List.length_map]
  exact length_le_unitForms cps

/-! ### ENC16 -/

/-- The number of units ENC16 writes for a code point (R126). -/
def unitCount (cp : CodePoint) : Nat := if codePointClass cp = .supplementary then 2 else 1

theorem unitCount_le_two (cp : CodePoint) : unitCount cp ≤ 2 := by
  unfold unitCount
  split <;> decide

theorem enc16Elem_out_length {w w' : Work} {cp : CodePoint} (h : enc16Elem w cp = .ok w') :
    w'.out.length ≤ w.out.length + unitCount cp := by
  cases hc : codePointClass cp with
  | outOfRange | surrogate => simp [enc16Elem, hc] at h
  | basic | supplementary =>
    simp only [enc16Elem, hc, Except.ok.injEq] at h
    simp [← h, unitCount, hc]

/-- ENC16 writes no more than the units its code points take. -/
theorem enc16_out_length_le_sum {cps : List CodePoint} {w w' : Work} (h : enc16 cps w = .ok w') :
    w'.out.length ≤ (cps.map unitCount).sum := by
  simpa using scan_out_length_le (f := enc16Elem) (g := unitCount) (fun _ _ _ => enc16Elem_out_length) h

theorem enc16_out_length_le {cps : List CodePoint} {w w' : Work} (h : enc16 cps w = .ok w') :
    w'.out.length ≤ 2 * cps.length := by
  have htwo : ∀ v v' cp, enc16Elem v cp = .ok v' → v'.out.length ≤ v.out.length + 2 := by
    intro v v' cp hcp
    have hcount := unitCount_le_two cp
    have hlen := enc16Elem_out_length hcp
    omega
  simpa using scan_out_length_le_mul htwo h

/-! ### DEC8 -/

/-- The number of units ENC16 writes for the output so far. -/
def unitsOf (w : Work) : Nat := (w.out.map unitCount).sum

/-- What the loop of DEC8 keeps: its output takes at most one unit for each byte behind it, and a sequence in progress
has had a byte of its own. -/
def UnitsWithinBytes (w : Work) : Prop := unitsOf w + (if w.acc = none then 0 else 1) ≤ w.i

/-- A single byte is a basic code point: one unit. -/
theorem unitCount_byteLane (b : Byte) : unitCount (byteLane b) = 1 := by
  have hlt := b.isLt
  have hclass : codePointClass (cpLane b.toNat) = .basic :=
    codePointClass_cpLane_basic (by omega) (by rw [IsSurrogate]; omega)
  rw [byteLane_eq, unitCount, show BitVec.ofNat 32 b.toNat = cpLane b.toNat from rfl, hclass]
  rfl

theorem dec8Complete_eq_ok {m : FourByteMin} {w w' : Work} {v : BitVec 21} :
    dec8Complete m w v = .ok w' ↔
      shortestOk m v w.tot = true ∧ w' = advance { emit [v.setWidth 32] w with acc := none, tot := 0 } := by
  cases hok : shortestOk m v w.tot with
  | false => simp [dec8Complete_error hok]
  | true => simp [dec8Complete_ok hok, eq_comm]

/-- All one byte of DEC8 can do (R140 to R144): a code point of its own, the lead of a sequence, a continuation byte that
is not the last, or the last one, with the completion of its value. -/
theorem dec8Elem_ok_cases {m : FourByteMin} {w w' : Work} {b : Byte} (h : dec8Elem m w b = .ok w') :
    (byteClass b = .single ∧ w.acc = none ∧ w' = advance (emit [byteLane b] w)) ∨
    (∃ p r t, byteClass b = .lead p r t ∧ w.acc = none ∧
      w' = advance { w with acc := some p, rem := r, tot := t }) ∨
    (∃ a, byteClass b = .continuation ∧ w.acc = some a ∧ w.rem - 1 ≠ 0 ∧
      w' = advance { w with acc := some (foldByte a b), rem := w.rem - 1 }) ∨
    ∃ a, byteClass b = .continuation ∧ w.acc = some a ∧ w.rem - 1 = 0 ∧
      dec8Complete m { w with acc := some (foldByte a b), rem := w.rem - 1 } (foldByte a b) = .ok w' := by
  cases hb : byteClass b <;> cases ha : w.acc <;> simp only [dec8Elem, hb, ha, raiseHere_eq, reduceCtorEq] at h
  case single.none => exact .inl ⟨rfl, rfl, (Except.ok.inj h).symm⟩
  case lead.none p r t => exact .inr (.inl ⟨p, r, t, rfl, rfl, (Except.ok.inj h).symm⟩)
  case continuation.some a =>
    split at h
    case isTrue hrem => exact .inr (.inr (.inr ⟨a, rfl, rfl, hrem, h⟩))
    case isFalse hrem => exact .inr (.inr (.inl ⟨a, rfl, rfl, hrem, (Except.ok.inj h).symm⟩))

theorem dec8Elem_index {m : FourByteMin} {w w' : Work} {b : Byte} (h : dec8Elem m w b = .ok w') : w'.i = w.i + 1 := by
  obtain ⟨-, -, rfl⟩ | ⟨p, r, t, -, -, rfl⟩ | ⟨a, -, -, -, rfl⟩ | ⟨a, -, -, -, hc⟩ := dec8Elem_ok_cases h
  · rfl
  · rfl
  · rfl
  · obtain ⟨-, rfl⟩ := dec8Complete_eq_ok.1 hc
    rfl

/-- A single byte takes one unit. A longer sequence has at least two bytes, its lead and its last, and takes at most two
units, whatever its value. -/
theorem dec8Elem_unitsWithinBytes {m : FourByteMin} {w w' : Work} {b : Byte} (hw : UnitsWithinBytes w)
    (h : dec8Elem m w b = .ok w') : UnitsWithinBytes w' := by
  unfold UnitsWithinBytes at hw ⊢
  obtain ⟨-, ha, rfl⟩ | ⟨p, r, t, -, ha, rfl⟩ | ⟨a, -, ha, -, rfl⟩ | ⟨a, -, ha, -, hc⟩ := dec8Elem_ok_cases h
  · simp [unitsOf, ha, unitCount_byteLane] at hw ⊢
    omega
  · simp [unitsOf, ha] at hw ⊢
    omega
  · simp [unitsOf, ha] at hw ⊢
    omega
  · obtain ⟨-, rfl⟩ := dec8Complete_eq_ok.1 hc
    have hcount := unitCount_le_two ((foldByte a b).setWidth 32)
    simp [unitsOf, ha] at hw ⊢
    omega

theorem dec8End_eq_ok {w w' : Work} : dec8End w = .ok w' ↔ w.rem = 0 ∧ w' = w := by
  unfold dec8End
  split
  case isTrue hr => simp [hr, eq_comm]
  case isFalse hr => exact iff_of_false (by simp) fun ⟨hrem, _⟩ => hr hrem

/-- The output of DEC8 takes at most one UTF-16 unit for each byte of its input. -/
theorem dec8_units_le {m : FourByteMin} {bs : List Byte} {w w' : Work} (h : dec8 m bs w = .ok w') :
    (w'.out.map unitCount).sum ≤ bs.length := by
  obtain ⟨v, hscan, hend⟩ := bind_eq_ok.1 h
  obtain ⟨-, rfl⟩ := dec8End_eq_ok.1 hend
  have hindex : w'.i = bs.length := by
    simpa using scan_index (fun _ _ _ => dec8Elem_index) hscan
  have hstart : UnitsWithinBytes { enter .dec8 w with acc := none, rem := 0, tot := 0 } := by
    simp [UnitsWithinBytes, unitsOf]
  have hunits : UnitsWithinBytes w' :=
    scan_keeps (fun _ _ _ _ => dec8Elem_unitsWithinBytes) hstart hscan
  have hle : unitsOf w' ≤ w'.i := (Nat.le_add_right _ _).trans hunits
  rw [unitsOf, hindex] at hle
  exact hle

theorem dec8_out_length_le {m : FourByteMin} {bs : List Byte} {w w' : Work} (h : dec8 m bs w = .ok w') :
    w'.out.length ≤ bs.length := by
  have hone : ∀ k ∈ w'.out.map unitCount, 1 ≤ k := by
    intro k hk
    obtain ⟨cp, -, rfl⟩ := List.mem_map.1 hk
    unfold unitCount
    split <;> decide
  have hsum := List.length_le_sum_of_one_le _ hone
  rw [List.length_map] at hsum
  exact hsum.trans (dec8_units_le h)

/-! ### ENC8 -/

/-- One code point of ENC8 that passes is in range and writes its shortest form (R150). -/
theorem inRange_of_enc8Elem {w w' : Work} {cp : CodePoint} (h : enc8Elem w cp = .ok w') :
    cp.toNat < 0x10FFFF ∧ w' = advance (emit ((utf8Form cp.toNat).map byteLane) w) := by
  have hrange : cp.toNat < 0x10FFFF := by
    by_contra hnot
    have hbad : cp.toInt < 0 ∨ 0x10FFFF ≤ cp.toInt := by
      rw [BitVec.toInt_eq_toNat_cond]
      split <;> omega
    simp [enc8Elem_error_iff.2 ⟨hbad, rfl⟩] at h
  have hok := enc8Elem_inRange hrange w
  rw [cpLane_toNat_self, h, Except.ok.injEq] at hok
  exact ⟨hrange, hok⟩

theorem utf8Form_length {c : Nat} (h : c < 0x10FFFF) : (utf8Form c).length = shortestLen c := by
  obtain ⟨hfits, -⟩ := shortest_accepted h .x80
  exact bytes_length_of_fits hfits

theorem shortestLen_le_four (c : Nat) : shortestLen c ≤ 4 := by
  unfold shortestLen
  split_ifs <;> decide

theorem enc8_out_length_le {cps : List CodePoint} {w w' : Work} (h : enc8 cps w = .ok w') :
    w'.out.length ≤ 4 * cps.length := by
  have hfour : ∀ v v' cp, enc8Elem v cp = .ok v' → v'.out.length ≤ v.out.length + 4 := by
    intro v v' cp hcp
    obtain ⟨hrange, rfl⟩ := inRange_of_enc8Elem hcp
    have hlen := shortestLen_le_four cp.toNat
    simpa [utf8Form_length hrange] using hlen
  simpa using scan_out_length_le_mul hfour h

/-- ENC8 succeeds on code points in range only. -/
theorem inRange_of_scan_enc8 {cps : List CodePoint} {w w' : Work} (h : scan enc8Elem cps w = .ok w') :
    ∀ cp ∈ cps, cp.toNat < 0x10FFFF := by
  induction cps generalizing w with
  | nil => simp
  | cons cp cps ih =>
    cases hcp : enc8Elem w cp with
    | error e => simp [scan_cons_error hcp] at h
    | ok v =>
      rw [scan_cons_ok hcp] at h
      obtain ⟨hrange, -⟩ := inRange_of_enc8Elem hcp
      exact List.forall_mem_cons.2 ⟨hrange, ih h⟩

/-! ### T7DEC -/

/-- T7DEC writes at most one unit for each hash byte, as DEC8 takes a byte for each unit that ENC16 writes. -/
theorem t7dec_out_length_le {p : Params} {t : List CodeUnit} {w w' : Work} (h : t7dec p t w = .ok w') :
    w'.out.length ≤ (t.length - 2) / 2 := by
  obtain ⟨v, -, h⟩ := bind_eq_ok.1 h
  simp only [parse_eq, ksx_eq, ok_bind, map_laneByte_byteLane] at h
  obtain ⟨d, hdec8, henc16⟩ := bind_eq_ok.1 h
  calc w'.out.length
    _ ≤ (d.out.map unitCount).sum := enc16_out_length_le_sum henc16
    _ ≤ _ := dec8_units_le hdec8
    _ = (t.length - 2) / 2 := by simp [keystreamXor_length, hexPairs_length]

/-! ### T7ENC -/

/-- A shortest UTF-8 form has at most three bytes for each unit of its code point. -/
theorem utf8Form_length_le {c : Nat} (h : c < 0x10FFFF) : (utf8Form c).length ≤ 3 * (unitForm c).length := by
  rw [utf8Form_length h]
  unfold shortestLen unitForm
  split_ifs <;> simp

theorem utf8Forms_length_le {cps : List Nat} (h : ∀ c ∈ cps, c < 0x10FFFF) :
    (utf8Forms cps).length ≤ 3 * (unitForms cps).length := by
  induction cps with
  | nil => simp [utf8Forms]
  | cons c cps ih =>
    obtain ⟨hc, hcps⟩ := List.forall_mem_cons.1 h
    have hhead := utf8Form_length_le hc
    have htail := ih hcps
    simp only [utf8Forms, unitForms, List.flatMap_cons, List.length_append] at htail ⊢
    omega

theorem ksx_out {k : KeyTable} {o : Nat} {bs : List Byte} {w w' : Work} (h : ksx k o bs w = .ok w') :
    w'.out = (keystreamXor k o bs).map byteLane := by
  rw [ksx_eq] at h
  simp [← Except.ok.inj h]

theorem format_out {o : Nat} {c : List Byte} {w w' : Work} (h : format o c w = .ok w') :
    w'.out = (type7Text o c).map unitLane := by
  rw [format_eq] at h
  simp [← Except.ok.inj h]

/-- T7ENC succeeds on the units of valid code points only, and writes two digits for the salt and two for each byte of
their UTF-8 (R182, R186). -/
theorem unitForms_of_t7enc {k : KeyTable} {o : Nat} {p : List CodeUnit} {w w' : Work} (h : t7enc k o p w = .ok w') :
    ∃ cps : List Nat, (∀ c ∈ cps, Valid c) ∧ p = unitForms cps ∧ w'.out.length = 2 + 2 * (utf8Forms cps).length := by
  obtain ⟨_, -, hafterArg⟩ := bind_eq_ok.1 h
  obtain ⟨d, hdec16, hafterDec16⟩ := bind_eq_ok.1 hafterArg
  obtain ⟨e, henc8, hafterEnc8⟩ := bind_eq_ok.1 hafterDec16
  obtain ⟨x, hksx, hformat⟩ := bind_eq_ok.1 hafterEnc8
  obtain ⟨cps, hunits, hp, hout⟩ := unitForms_of_dec16 hdec16
  simp only [hout] at henc8
  have hrange : ∀ c ∈ cps, c < 0x10FFFF := by
    intro c hc
    obtain ⟨hle, -⟩ := hunits c hc
    have hlane := inRange_of_scan_enc8 henc8 (cpLane c) (List.mem_map_of_mem hc)
    rwa [cpLane_toNat (by omega)] at hlane
  have hbytes : e.out = (utf8Forms cps).map byteLane := by
    rw [enc8, scan_enc8_inRange hrange] at henc8
    simp [← Except.ok.inj henc8]
  refine ⟨cps, fun c hc => ⟨hrange c hc, (hunits c hc).2⟩, hp, ?_⟩
  simp [format_out hformat, type7Text_length, ksx_out hksx, keystreamXor_length, hbytes]

/-! ### The bounds of the table -/

/-- Settles O19, row by row of R74's table. -/
theorem outputLengthIsBounded : Obligations.OutputLengthIsBounded := by
  intro s out
  have hu : s.units.length = s.input.length := units_length s
  have hb : s.bytes.length = s.input.length := bytes_length s
  simp only [exec_eq_answered_ok]
  refine ⟨?dec16, ?enc16, ?dec8, ?enc8, ?t7dec, fun o => ⟨?ksx, ?t7enc⟩⟩
  case dec16 =>
    rintro ⟨w, h, rfl⟩
    exact hu ▸ dec16_out_length_le h
  case enc16 =>
    rintro ⟨w, h, rfl⟩
    exact enc16_out_length_le h
  case dec8 =>
    rintro ⟨w, h, rfl⟩
    exact hb ▸ dec8_out_length_le h
  case enc8 =>
    rintro ⟨w, h, rfl⟩
    exact enc8_out_length_le h
  case t7dec =>
    rintro ⟨w, h, rfl⟩
    exact hu ▸ t7dec_out_length_le h
  case ksx =>
    rintro ⟨w, h, rfl⟩
    simp [ksx_out h, keystreamXor_length, hb]
  case t7enc =>
    rintro ⟨w, h, rfl⟩
    obtain ⟨cps, hvalid, hunits, hlen⟩ := unitForms_of_t7enc h
    refine ⟨cps, hvalid, hunits, ?_, hlen⟩
    rw [← hu, hunits]
    exact utf8Forms_length_le fun c hc => (hvalid c hc).1

end Sys2Proof.Machine

/-! SUPPORT. The proofs of 30_encoding.md: the descriptors in numbers, what the decoder answers, what the port makes of
a descriptor, and DEC16 and DEC8 on well-formed data. -/

namespace Sys2Proof

/-! ### The number of a descriptor (R90, R91) -/

/-- The `OP` number of an operation (R91). -/
def opNumber : Instr → Nat
  | .dec16 => 1
  | .enc16 => 2
  | .dec8 => 3
  | .enc8 => 4
  | .t7dec => 5
  | .t7enc _ => 6
  | .ksx _ => 7

/-- What stands in the `OFFSET` field of an operation's descriptor: its offset operand, or zero (R92, R96). -/
def offsetNumber : Instr → Nat
  | .t7enc o => o
  | .ksx o => o
  | _ => 0

/-- R91, R92, R96: the operations are numbered 1 to 7, an offset is a 7-bit number, and the first five have none. -/
theorem numbers_of_wellFormed {i : Instr} (h : WellFormed i = true) :
    1 ≤ opNumber i ∧ opNumber i ≤ 7 ∧ offsetNumber i ≤ 127 ∧ (opNumber i ≤ 5 → offsetNumber i = 0) := by
  cases i with
  | t7enc o | ksx o => simpa [WellFormed, offsetOk, opNumber, offsetNumber] using h
  | dec16 | enc16 | dec8 | enc8 | t7dec => decide

/-- The descriptor of an operation: its number in bits 3:0, its offset in bits 10:4, nothing above (R90). -/
theorem encode_toNat {i : Instr} (h : WellFormed i = true) :
    (encode i).toNat = opNumber i + 16 * offsetNumber i := by
  obtain ⟨-, -, ho, -⟩ := numbers_of_wellFormed h
  cases i with
  | t7enc o | ksx o => exact offset_descriptor_toNat (by decide) ho
  | dec16 | enc16 | dec8 | enc8 | t7dec => rfl

/-- A descriptor with the number of an operation is that operation's. -/
theorem encode_eq_of_toNat {i : Instr} {c : Descriptor} (h : WellFormed i = true)
    (hc : c.toNat = opNumber i + 16 * offsetNumber i) : encode i = c :=
  BitVec.eq_of_toNat_eq ((encode_toNat h).trans hc.symm)

/-! ### The fields -/

theorem rsvField_eq_zero {c : Descriptor} : rsvField c = 0 ↔ c.toNat < 0x800 := by
  rw [← BitVec.toNat_inj, rsvField_toNat]
  simp

theorem offsetField_eq_zero {c : Descriptor} : offsetField c = 0 ↔ c.toNat / 16 % 128 = 0 := by
  rw [← BitVec.toNat_inj, offsetField_toNat]
  simp

theorem opField_encode {i : Instr} (h : WellFormed i = true) : (opField (encode i)).toNat = opNumber i := by
  obtain ⟨-, hop, -, -⟩ := numbers_of_wellFormed h
  rw [opField_toNat, encode_toNat h]
  omega

theorem offsetField_encode {i : Instr} (h : WellFormed i = true) :
    (offsetField (encode i)).toNat = offsetNumber i := by
  obtain ⟨-, hop, ho, -⟩ := numbers_of_wellFormed h
  rw [offsetField_toNat, encode_toNat h]
  omega

theorem rsvField_encode {i : Instr} (h : WellFormed i = true) : rsvField (encode i) = 0 := by
  obtain ⟨-, hop, ho, -⟩ := numbers_of_wellFormed h
  rw [rsvField_eq_zero, encode_toNat h]
  omega

/-! ### What the decoder answers (R93) -/

/-- The decoder finds the number and the offset of an operation in their fields. -/
theorem decode_encode {i : Instr} (h : WellFormed i = true) : decode (encode i) = .ok i := by
  have hop := opField_encode h
  have hoffset := offsetField_encode h
  rw [decode, if_neg (not_not_intro (rsvField_encode h)), hop]
  cases i with
  | t7enc o => exact congrArg (fun k => Except.ok (Instr.t7enc k)) hoffset
  | ksx o => exact congrArg (fun k => Except.ok (Instr.ksx k)) hoffset
  | dec16 | enc16 | dec8 | enc8 | t7dec => rfl

theorem decode_of_toNat {i : Instr} {c : Descriptor} (h : WellFormed i = true)
    (hc : c.toNat = opNumber i + 16 * offsetNumber i) : decode c = .ok i := by
  rw [← encode_eq_of_toNat h hc, decode_encode h]

/-- A descriptor written as the number of an operation decodes to it. -/
theorem decode_ofNat {i : Instr} (h : WellFormed i = true) :
    decode (BitVec.ofNat 16 (opNumber i + 16 * offsetNumber i)) = .ok i := by
  obtain ⟨-, hop, ho, -⟩ := numbers_of_wellFormed h
  exact decode_of_toNat h (by rw [BitVec.toNat_ofNat, Nat.mod_eq_of_lt (by omega)])

/-- R94: the first check. -/
theorem decode_reservedBits {c : Descriptor} (h : 0x800 ≤ c.toNat) : decode c = .error .reservedBits := by
  rw [decode, if_pos fun hrsv => absurd (rsvField_eq_zero.1 hrsv) (by omega)]

/-- R95: the second check. -/
theorem decode_reservedOp {c : Descriptor} (hrsv : c.toNat < 0x800) (hop : c.toNat % 16 = 0 ∨ 8 ≤ c.toNat % 16) :
    decode c = .error .reservedOp := by
  rw [decode, if_neg (not_not_intro (rsvField_eq_zero.2 hrsv)), opField_toNat]
  split
  case h_8 => rfl
  all_goals omega

/-- R96: the third check. -/
theorem decode_offsetNotZero {c : Descriptor} (hrsv : c.toNat < 0x800) (hop : 1 ≤ c.toNat % 16)
    (hop' : c.toNat % 16 ≤ 5) (hoffset : c.toNat / 16 ≠ 0) : decode c = .error .offsetNotZero := by
  have hfield : offsetField c ≠ 0 := fun h => absurd (offsetField_eq_zero.1 h) (by omega)
  have hcheck : ∀ i, decodeNoOffset c i = .error .offsetNotZero := fun _ => if_neg hfield
  rw [decode, if_neg (not_not_intro (rsvField_eq_zero.2 hrsv)), opField_toNat]
  obtain h | h | h | h | h :
      c.toNat % 16 = 1 ∨ c.toNat % 16 = 2 ∨ c.toNat % 16 = 3 ∨ c.toNat % 16 = 4 ∨ c.toNat % 16 = 5 := by omega
  all_goals
    rw [h]
    exact hcheck _

/-- A descriptor that passes the three checks has the number of a well-formed operation. -/
theorem exists_instr_of_checks {c : Descriptor} (hrsv : c.toNat < 0x800) (hop : 1 ≤ c.toNat % 16)
    (hop' : c.toNat % 16 ≤ 7) (hoffset : c.toNat % 16 ≤ 5 → c.toNat / 16 = 0) :
    ∃ i, WellFormed i = true ∧ c.toNat = opNumber i + 16 * offsetNumber i := by
  by_cases h5 : c.toNat % 16 ≤ 5
  · have hzero := hoffset h5
    obtain h | h | h | h | h :
        c.toNat = 1 ∨ c.toNat = 2 ∨ c.toNat = 3 ∨ c.toNat = 4 ∨ c.toNat = 5 := by omega
    · exact ⟨.dec16, rfl, h⟩
    · exact ⟨.enc16, rfl, h⟩
    · exact ⟨.dec8, rfl, h⟩
    · exact ⟨.enc8, rfl, h⟩
    · exact ⟨.t7dec, rfl, h⟩
  · have ho : offsetOk (c.toNat / 16) = true := decide_eq_true (by omega)
    obtain h | h : c.toNat % 16 = 6 ∨ c.toNat % 16 = 7 := by omega
    · exact ⟨.t7enc (c.toNat / 16), ho, by simp only [opNumber, offsetNumber]; omega⟩
    · exact ⟨.ksx (c.toNat / 16), ho, by simp only [opNumber, offsetNumber]; omega⟩

/-- All the decoder can answer: the three errors in the order of R93, or the operation of the descriptor's number. -/
theorem decode_cases (c : Descriptor) :
    (0x800 ≤ c.toNat ∧ decode c = .error .reservedBits) ∨
    ((c.toNat % 16 = 0 ∨ 8 ≤ c.toNat % 16) ∧ decode c = .error .reservedOp) ∨
    ((1 ≤ c.toNat % 16 ∧ c.toNat % 16 ≤ 5 ∧ c.toNat / 16 % 128 ≠ 0) ∧ decode c = .error .offsetNotZero) ∨
    ∃ i, WellFormed i = true ∧ c.toNat = opNumber i + 16 * offsetNumber i ∧ decode c = .ok i := by
  by_cases hrsv : 0x800 ≤ c.toNat
  · exact .inl ⟨hrsv, decode_reservedBits hrsv⟩
  by_cases hop : c.toNat % 16 = 0 ∨ 8 ≤ c.toNat % 16
  · exact .inr (.inl ⟨hop, decode_reservedOp (by omega) hop⟩)
  by_cases hoffset : c.toNat % 16 ≤ 5 ∧ c.toNat / 16 ≠ 0
  · obtain ⟨hop', hnonzero⟩ := hoffset
    exact .inr (.inr (.inl ⟨by omega, decode_offsetNotZero (by omega) (by omega) hop' hnonzero⟩))
  · obtain ⟨i, hi, hc⟩ := exists_instr_of_checks (c := c) (by omega) (by omega) (by omega) (by omega)
    exact .inr (.inr (.inr ⟨i, hi, hc, decode_of_toNat hi hc⟩))

/-- The decoder accepts exactly the descriptors of the well-formed operations. -/
theorem decode_eq_ok_iff {c : Descriptor} {i : Instr} :
    decode c = .ok i ↔ WellFormed i = true ∧ c.toNat = opNumber i + 16 * offsetNumber i := by
  refine ⟨fun h => ?_, fun ⟨hi, hc⟩ => decode_of_toNat hi hc⟩
  obtain ⟨-, hd⟩ | ⟨-, hd⟩ | ⟨-, hd⟩ | ⟨j, hj, hc, hd⟩ := decode_cases c
  · simp [hd] at h
  · simp [hd] at h
  · simp [hd] at h
  · obtain rfl : j = i := Except.ok.inj (hd.symm.trans h)
    exact ⟨hj, hc⟩

/-- R94, R95, R96: a descriptor with a non-zero `RSV`, a reserved `OP` or a non-zero `OFFSET` on an operation without
one is no operation's. -/
theorem exists_decode_error {c : Descriptor}
    (h : 0x800 ≤ c.toNat ∨ (c.toNat % 16 = 0 ∨ 8 ≤ c.toNat % 16) ∨
      (1 ≤ c.toNat % 16 ∧ c.toNat % 16 ≤ 5 ∧ c.toNat / 16 % 128 ≠ 0)) : ∃ r, decode c = .error r := by
  cases hd : decode c with
  | error r => exact ⟨r, rfl⟩
  | ok i =>
    obtain ⟨hi, hc⟩ := decode_eq_ok_iff.1 hd
    have hnumbers := numbers_of_wellFormed hi
    omega

/-! ### The statements about the decoder -/

/-- Settles O1: each field of an operation's descriptor reads back what the encoder wrote there (`decode_encode`). -/
theorem encodedOperationDecodesToItself : Obligations.EncodedOperationDecodesToItself :=
  fun _ h => decode_encode h

/-- Settles O2: an accepted descriptor has the operation's number (`decode_eq_ok_iff`), which fixes all its bits. -/
theorem acceptedDescriptorIsItsEncoding : Obligations.AcceptedDescriptorIsItsEncoding := by
  intro c i h
  obtain ⟨hi, hc⟩ := decode_eq_ok_iff.1 h
  exact ⟨hi, encode_eq_of_toNat hi hc⟩

/-- Settles O3: each descriptor has the number of its operation, the offset times 16 added. -/
theorem writtenDescriptorsDecode : Obligations.WrittenDescriptorsDecode :=
  ⟨decode_of_toNat rfl rfl, decode_of_toNat rfl rfl, decode_of_toNat rfl rfl, decode_of_toNat rfl rfl,
    decode_of_toNat rfl rfl, decode_of_toNat rfl rfl, decode_of_toNat rfl rfl, decode_of_toNat rfl rfl,
    decode_of_toNat rfl rfl⟩

/-- Settles O4: with `RSV` zero, the number above bits 3:0 is the offset. -/
theorem offsetOperandIsZeroExtendedField : Obligations.OffsetOperandIsZeroExtendedField := by
  intro c hrsv
  have hle : c.toNat / 16 ≤ 127 := by omega
  have hsplit : c.toNat = c.toNat % 16 + 16 * (c.toNat / 16) := (Nat.mod_add_div _ _).symm
  have ho : offsetOk (c.toNat / 16) = true := decide_eq_true hle
  refine ⟨fun hop => ⟨decode_of_toNat ho ?_, hle⟩, fun hop => ⟨decode_of_toNat ho ?_, hle⟩⟩
  · rwa [hop] at hsplit
  · rwa [hop] at hsplit

end Sys2Proof

namespace Sys2Proof.Machine

open Sys2Proof.Safety

/-! ### What the port makes of a descriptor (R93) -/

theorem illegalOp_eq (c : Descriptor) : illegalOp c = ⟨.eIllegalOp, .none, 0, BitVec.ofNat 32 c.toNat⟩ := by
  have hvalue : c.setWidth 32 = BitVec.ofNat 32 c.toNat := BitVec.eq_of_toNat_eq (by simp)
  rw [illegalOp, hvalue]

/-- A descriptor that names no operation is rejected, whatever the input (R93, R212). -/
theorem step_of_decode_error {s : State} {r : DecodeError} (hs : s.activity = .inProgress)
    (hd : decode s.cmd = .error r) :
    step s = .next (answered s (.err ⟨.eIllegalOp, .none, 0, BitVec.ofNat 32 s.cmd.toNat⟩)) := by
  rw [← illegalOp_eq]
  exact step_of_reject (portAction_eq_reject.2 ⟨hs, .inl ⟨r, hd, rfl⟩⟩)

theorem fits_iff {s : State} : Fits s ↔ overCapacity s.params.maxInLen s.n = false := by
  rw [Bool.eq_false_iff, ne_eq, overCapacity_iff]
  simp [Fits, State.n]

/-- An operation whose descriptor and input pass the checks is performed (R93). -/
theorem step_of_decode_ok {s : State} {i : Instr} (hs : s.activity = .inProgress) (hd : decode s.cmd = .ok i)
    (hfits : Fits s) : step s = exec i s :=
  step_of_perform (portAction_eq_perform.2 ⟨hs, hd, fits_iff.1 hfits⟩)

/-- An operation whose input does not fit is rejected for its capacity (R73). -/
theorem step_of_not_fits {s : State} {i : Instr} (hs : s.activity = .inProgress) (hd : decode s.cmd = .ok i)
    (hfits : ¬ Fits s) : ∃ e : ErrRecord, e.code = .eCapacity ∧ step s = .next (answered s (.err e)) := by
  simp only [Fits, not_forall, not_le] at hfits
  obtain ⟨m, hm, hlong⟩ := hfits
  exact ⟨capacityError m s.n, rfl, step_of_reject (portAction_eq_reject.2 ⟨hs, .inr ⟨i, m, hd, hm, hlong, rfl⟩⟩)⟩

/-! ### The offsets of T7ENC and KSX (R97) -/

/-- R183: an offset above 99 ends T7ENC before any stage that reads the input. -/
theorem t7enc_error {k : KeyTable} {o : Nat} {p : List CodeUnit} {w : Work} (ho : 99 < o) :
    t7enc k o p w = .error ⟨.e7OffsetRange, .arg, 0, natValue ErrCode.e7OffsetRange.code o⟩ := by
  have harg : ∀ v, argCheck o v = .error ⟨.e7OffsetRange, .arg, 0, natValue ErrCode.e7OffsetRange.code o⟩ :=
    fun v => by simp [argCheck, ho]
  rw [t7enc, harg]
  rfl

/-- KSX answers an output for every offset and input (R172). -/
theorem exec_ksx (s : State) (o : Nat) :
    exec (.ksx o) s = .next (answered s (.ok ((keystreamXor s.params.keyTable o s.bytes).map byteLane))) :=
  exec_eq_answered_ok.2 ⟨_, ksx_eq _ _ _ _, rfl⟩

/-! ### DEC16 and DEC8 on well-formed data (R98, R99) -/

/-- DEC16 completes on the units and pairs of code points: nothing is pending at its end (R123, R124). -/
theorem dec16_unitForms {cps : List Nat} (h : ∀ c ∈ cps, HasUnits c) (w : Work) :
    dec16 (unitForms cps) w =
      .ok { enter .dec16 w with pend := none, i := (unitForms cps).length, out := cps.map cpLane } := by
  rw [dec16, scan_dec16_unitForms h rfl, ok_bind, dec16End_eq_ok.2 ⟨rfl, rfl⟩]
  simp

/-- DEC8 completes on accepted sequences: no continuation byte is expected at its end (R145, R146). -/
theorem dec8_seqBytes {m : FourByteMin} {qs : List Utf8Seq} (h : ∀ q ∈ qs, q.Accepted m) (w : Work) :
    dec8 m (seqBytes qs) w =
      .ok { enter .dec8 w with acc := none, rem := 0, tot := 0, i := (seqBytes qs).length,
                               out := qs.map fun q => cpLane q.value } := by
  rw [dec8, scan_dec8_seqBytes h ⟨rfl, rfl, rfl⟩, ok_bind, dec8End_eq_ok.2 ⟨rfl, rfl⟩]
  simp

/-! ### The statements about requests -/

/-- Settles O5: none of the three kinds of descriptor decodes (`exists_decode_error`), and the port rejects what does
not decode. -/
theorem illegalDescriptorFailsWithIllegalOp : Obligations.IllegalDescriptorFailsWithIllegalOp := by
  intro s hs hillegal
  obtain ⟨r, hd⟩ := exists_decode_error hillegal
  exact step_of_decode_error hs hd

/-- Settles O8: the port adds nothing to an operation it performs. -/
theorem stepRunsTheDecodedOperation : Obligations.StepRunsTheDecodedOperation :=
  fun _ _ => step_of_decode_ok

/-- Settles O6: one lemma for each outcome of the decoder, and one for each of the port's. -/
theorem descriptorChecksRunInOrder : Obligations.DescriptorChecksRunInOrder := by
  intro c
  refine ⟨decode_reservedBits, decode_reservedOp, decode_offsetNotZero, fun hrsv hop hop' hoffset => ?_, ?_⟩
  · obtain ⟨i, hi, hc⟩ := exists_instr_of_checks hrsv hop hop' hoffset
    exact ⟨i, decode_of_toNat hi hc⟩
  · rintro s hs rfl
    exact ⟨fun r hd => ⟨_, rfl, rfl, rfl, rfl, step_of_decode_error hs hd⟩,
      fun i hd => ⟨step_of_decode_ok hs hd, step_of_not_fits hs hd⟩⟩

/-- Settles O7. Both descriptors decode; then T7ENC fails in its ARG stage (`t7enc_error`), and KSX never fails
(`exec_ksx`). -/
theorem largeOffsetsAreLegalEncodings : Obligations.LargeOffsetsAreLegalEncodings := by
  intro s o hs hfits
  refine ⟨fun hlarge ho hcmd => ?t7enc, fun ho hcmd => ?ksx⟩
  case t7enc =>
    have hd : decode s.cmd = .ok (.t7enc o) := hcmd ▸ decode_ofNat (i := .t7enc o) (decide_eq_true ho)
    exact ⟨_, rfl, (step_of_decode_ok hs hd hfits).trans (exec_eq_answered_err.2 (t7enc_error hlarge))⟩
  case ksx =>
    have hd : decode s.cmd = .ok (.ksx o) := hcmd ▸ decode_ofNat (i := .ksx o) (decide_eq_true ho)
    exact ⟨_, (step_of_decode_ok hs hd hfits).trans (exec_ksx s o)⟩

/-- Settles O25: the induction over the code points is `scan_dec16_unitForms`. -/
theorem dec16DecodesUnitsAndPairs : Obligations.Dec16DecodesUnitsAndPairs := by
  intro s cps hcps hunits
  have hbody := dec16_unitForms hcps s.work
  rw [← hunits] at hbody
  exact exec_eq_answered_ok.2 ⟨_, hbody, rfl⟩

/-- Settles O31: the induction over the sequences is `scan_dec8_seqBytes`. -/
theorem dec8DecodesAcceptedSequences : Obligations.Dec8DecodesAcceptedSequences := by
  intro s qs hqs hbytes
  have hbody := dec8_seqBytes hqs s.work
  rw [← hbytes] at hbody
  exact exec_eq_answered_ok.2 ⟨_, hbody, rfl⟩

end Sys2Proof.Machine

/-! SUPPORT. The proofs of 40_utf16.md: the inputs on which DEC16 and ENC16 succeed, what they answer there, and the
record of the first element that is refused. -/

namespace Sys2Proof.Machine

open Sys2Proof.Safety

/-! ### Units, pairs and valid code points (R98, R125, R127) -/

/-- A code point takes a pair from 0x10000 on, and one unit below (R98). -/
theorem unitForm_length (c : Nat) : (unitForm c).length = if 0x10000 ≤ c then 2 else 1 := by
  by_cases hc : 0x10000 ≤ c
  · rw [unitForm, if_neg (by omega), if_pos hc]
    rfl
  · rw [unitForm, if_pos (by omega), if_neg hc]
    rfl

/-- The units of code points are one for each, and one more for each pair (R125). -/
theorem unitForms_length (cps : List Nat) :
    (unitForms cps).length = cps.length + cps.countP (fun c => 0x10000 ≤ c) := by
  induction cps with
  | nil => rfl
  | cons c cps ih =>
    have hcons : (unitForms (c :: cps)).length = (unitForm c).length + (unitForms cps).length := by simp [unitForms]
    rw [hcons, unitForm_length, ih, List.length_cons, List.countP_cons]
    by_cases hc : 0x10000 ≤ c
    · simp only [if_pos hc, decide_eq_true hc, if_true]
      omega
    · simp only [if_neg hc, decide_eq_false hc, Bool.false_eq_true, if_false]
      omega

/-- R128: 0x10FFFF is the one code point that has units and is not valid. -/
theorem valid_iff_hasUnits_ne {c : Nat} : Valid c ↔ HasUnits c ∧ c ≠ 0x10FFFF := by
  simp only [Valid, HasUnits]
  omega

theorem hasUnits_of_valid {c : Nat} (h : Valid c) : HasUnits c := (valid_iff_hasUnits_ne.1 h).1

/-- A lane holds a valid code point exactly when R101 finds it neither out of range nor a surrogate. -/
theorem valid_toNat_iff {cp : CodePoint} :
    Valid cp.toNat ↔ ¬ (cp.toInt < 0 ∨ 0x10FFFF ≤ cp.toInt) ∧ ¬ (0xD800 ≤ cp.toInt ∧ cp.toInt ≤ 0xDFFF) := by
  have hlt := cp.isLt
  rw [BitVec.toInt_eq_toNat_cond, Valid, IsSurrogate]
  split <;> omega

theorem map_cpLane_toNat (ls : List Lane) : (ls.map BitVec.toNat).map cpLane = ls := by
  simp [Function.comp_def, cpLane_toNat_self]

/-- The lanes of code points with units hold 0x10FFFF only where the code point is 0x10FFFF. -/
theorem limit_mem_map_cpLane {cps : List Nat} (h : ∀ c ∈ cps, HasUnits c) :
    0x10FFFF#32 ∈ cps.map cpLane ↔ 0x10FFFF ∈ cps := by
  refine ⟨fun hmem => ?_, fun hmem => List.mem_map_of_mem hmem⟩
  obtain ⟨c, hc, heq⟩ := List.mem_map.1 hmem
  have hle := (h c hc).1
  have hval : c = 0x10FFFF := by
    rw [← cpLane_toNat (show c < 2 ^ 32 by omega), heq]
    rfl
  exact hval ▸ hc

/-! ### DEC16 (R120 to R125) -/

/-- DEC16 answers an output exactly on units and pairs, and writes the code points they stand for (R124, R125). -/
theorem exec_dec16_eq_ok {s : State} {out : List Lane} :
    exec .dec16 s = .next (answered s (.ok out)) ↔
      ∃ cps : List Nat, (∀ c ∈ cps, HasUnits c) ∧ s.units = unitForms cps ∧ out = cps.map cpLane := by
  constructor
  · intro h
    obtain ⟨w, hbody, rfl⟩ := exec_eq_answered_ok.1 h
    exact unitForms_of_dec16 hbody
  · rintro ⟨cps, hcps, hunits, rfl⟩
    exact dec16DecodesUnitsAndPairs s cps hcps hunits

theorem dec16Elem_lead_pending {w : Work} {u : CodeUnit} {p : BitVec 20} (h : IsLead u) (hp : w.pend = some p) :
    dec16Elem w u = .error ⟨.e16LeadAfterLead, w.stage, w.i, BitVec.ofNat 32 u.toNat⟩ := by
  simp [dec16Elem, unitClass_eq_lead.2 h, hp, unitLane_eq]

theorem dec16Elem_nonSurrogate_pending {w : Work} {u : CodeUnit} {p : BitVec 20} (h : ¬ IsSurrogate u.toNat)
    (hp : w.pend = some p) :
    dec16Elem w u = .error ⟨.e16NontrailAfterLead, w.stage, w.i, BitVec.ofNat 32 u.toNat⟩ := by
  simp [dec16Elem, unitClass_eq_nonSurrogate.2 h, hp, unitLane_eq]

theorem dec16Elem_trail_nothingPending {w : Work} {u : CodeUnit} (h : IsTrail u) (hp : w.pend = none) :
    dec16Elem w u = .error ⟨.e16TrailWithoutLead, w.stage, w.i, BitVec.ofNat 32 u.toNat⟩ := by
  simp [dec16Elem, unitClass_eq_trail.2 h, hp, unitLane_eq]

/-- R123: the value of a lead left at the end is the lead itself. -/
theorem dec16End_pending {w : Work} {u : CodeUnit} (h : IsLead u) (hp : w.pend = some (pendingOf u)) :
    dec16End w = .error ⟨.e16DanglingLead, w.stage, w.i, BitVec.ofNat 32 u.toNat⟩ := by
  simp [dec16End, hp, leadOfPending_pendingOf h, unitLane_eq]

/-- The working registers of DEC16 after the units and pairs of `cps`, with nothing pending. -/
def afterUnitForms (cps : List Nat) (w : Work) : Work :=
  { enter .dec16 w with pend := none, i := (unitForms cps).length, out := cps.map cpLane }

/-- After a well-formed beginning DEC16 goes on with the units that follow it. -/
theorem dec16_unitForms_append {cps : List Nat} (h : ∀ c ∈ cps, HasUnits c) (us : List CodeUnit) (w : Work) :
    dec16 (unitForms cps ++ us) w = scan dec16Elem us (afterUnitForms cps w) >>= dec16End := by
  rw [dec16, scan_append_ok (scan_dec16_unitForms h rfl)]
  simp [afterUnitForms]

/-- A lead after a well-formed beginning is held pending for the units that follow it (R120). -/
theorem dec16_unitForms_append_lead {cps : List Nat} (h : ∀ c ∈ cps, HasUnits c) {u : CodeUnit} (hu : IsLead u)
    (us : List CodeUnit) (w : Work) :
    dec16 (unitForms cps ++ u :: us) w =
      scan dec16Elem us (advance { afterUnitForms cps w with pend := some (pendingOf u) }) >>= dec16End := by
  rw [dec16_unitForms_append h, scan_cons_ok (dec16Elem_lead hu rfl)]

/-- A loop that fails at its first element fails DEC16 with that record: nothing after it is read (R215). -/
theorem dec16_error_of_head {u : CodeUnit} {v : Work} {e : ErrRecord} (h : dec16Elem v u = .error e)
    (us : List CodeUnit) : (scan dec16Elem (u :: us) v >>= dec16End) = .error e :=
  bind_eq_error.2 (.inl (scan_cons_error h))

/-! ### ENC16 (R126, R127) -/

/-- A loop that ends passed every element. -/
theorem exists_ok_of_scan_ok {α : Type} {f : Work → α → Result} {as : List α} {w w' : Work}
    (h : scan f as w = .ok w') : ∀ a ∈ as, ∃ v v', f v a = .ok v' := by
  intro a ha
  obtain ⟨good, rest, rfl⟩ := List.append_of_mem ha
  cases hgood : scan f good w with
  | error e => simp [scan_append, hgood, Except.bind] at h
  | ok v =>
    rw [scan_append_ok hgood] at h
    cases helem : f v a with
    | error e => simp [scan_cons_error helem] at h
    | ok v' => exact ⟨v, v', helem⟩

theorem valid_of_enc16Elem {w w' : Work} {cp : CodePoint} (h : enc16Elem w cp = .ok w') : Valid cp.toNat := by
  refine valid_toNat_iff.2 ⟨fun hrange => ?_, fun hsurrogate => ?_⟩
  · simp [enc16Elem_error_iff.2 (.inl ⟨hrange, rfl⟩)] at h
  · simp [enc16Elem_error_iff.2 (.inr ⟨hsurrogate, rfl⟩)] at h

theorem enc16_valid {cps : List Nat} (h : ∀ c ∈ cps, Valid c) (w : Work) :
    enc16 (cps.map cpLane) w = .ok { enter .enc16 w with i := cps.length, out := unitLanes (unitForms cps) } := by
  rw [enc16, scan_enc16_valid h, unitLanes_eq]
  simp

/-- ENC16 answers an output exactly on valid code points, and writes their units and pairs (R126, R127). -/
theorem exec_enc16_eq_ok {s : State} {out : List Lane} :
    exec .enc16 s = .next (answered s (.ok out)) ↔
      ∃ cps : List Nat, (∀ c ∈ cps, Valid c) ∧ s.input = cps.map cpLane ∧ out = unitLanes (unitForms cps) := by
  have hbody {cps : List Nat} (hcps : ∀ c ∈ cps, Valid c) (hinput : s.input = cps.map cpLane) :
      bodyOf .enc16 s = .ok { enter .enc16 s.work with i := cps.length, out := unitLanes (unitForms cps) } := by
    rw [← enc16_valid hcps, ← hinput]
    rfl
  rw [exec_eq_answered_ok]
  constructor
  · rintro ⟨w, hw, rfl⟩
    have hvalid : ∀ c ∈ s.input.map BitVec.toNat, Valid c := List.forall_mem_map.2 fun cp hcp =>
      have ⟨_, _, hok⟩ := exists_ok_of_scan_ok hw cp hcp
      valid_of_enc16Elem hok
    have hinput : s.input = (s.input.map BitVec.toNat).map cpLane := (map_cpLane_toNat _).symm
    rw [hbody hvalid hinput] at hw
    exact ⟨_, hvalid, hinput, by rw [← Except.ok.inj hw]⟩
  · rintro ⟨cps, hcps, hinput, rfl⟩
    exact ⟨_, hbody hcps hinput, rfl⟩

/-- After valid code points ENC16 fails at the first one its element step refuses (R126, R215). -/
theorem exec_enc16_eq_err {s : State} {cps : List Nat} (h : ∀ c ∈ cps, Valid c) {bad : CodePoint}
    {rest : List CodePoint} (hinput : s.input = cps.map cpLane ++ bad :: rest) {code : ErrCode}
    (hbad : ∀ w, enc16Elem w bad = .error ⟨code, w.stage, w.i, bad⟩) :
    exec .enc16 s = .next (answered s (.err ⟨code, .enc16, cps.length, bad⟩)) := by
  have hbody : bodyOf .enc16 s = enc16 (cps.map cpLane ++ bad :: rest) s.work := hinput ▸ rfl
  rw [exec_eq_answered_err, hbody, enc16, scan_append_ok (scan_enc16_valid h _), scan_cons_error (hbad _)]
  simp

/-! ### The statements -/

/-- Settles O26: an output means units and pairs (`exec_dec16_eq_ok`), and the pairs account for the difference of the
lengths (`unitForms_length`). -/
theorem dec16SucceedsOnlyOnUnitsAndPairs : Obligations.Dec16SucceedsOnlyOnUnitsAndPairs := by
  intro s out h
  obtain ⟨cps, hcps, hunits, rfl⟩ := exec_dec16_eq_ok.1 h
  have hlen : s.input.length = cps.length + cps.countP (fun c => 0x10000 ≤ c) := by
    rw [← unitForms_length, ← hunits, units_length, State.n]
  refine ⟨cps, hcps, hunits, rfl, ?_, ?_⟩ <;> rw [List.length_map] <;> omega

/-- Settles O27. After the well-formed beginning nothing is pending, so a trail fails at once; a lead is pending, and
fails the unit after it or the end check. -/
theorem dec16RejectsUnpairedSurrogates : Obligations.Dec16RejectsUnpairedSurrogates := by
  intro s cps u v rest hcps
  have hbody : bodyOf .dec16 s = dec16 s.units s.work := rfl
  refine ⟨fun hu hv hunits => ?lead, fun hu hv hunits => ?nonSurrogate, fun hu hunits => ?trail,
    fun hu hunits => ?dangling⟩ <;> rw [exec_eq_answered_err, hbody, hunits]
  case lead =>
    rw [dec16_unitForms_append_lead hcps hu]
    exact dec16_error_of_head (dec16Elem_lead_pending hv rfl) rest
  case nonSurrogate =>
    rw [dec16_unitForms_append_lead hcps hu]
    exact dec16_error_of_head (dec16Elem_nonSurrogate_pending hv rfl) rest
  case trail =>
    rw [dec16_unitForms_append hcps]
    exact dec16_error_of_head (dec16Elem_trail_nothingPending hu rfl) rest
  case dangling =>
    have hlen : s.input.length = (unitForms cps).length + 1 := by
      simpa [units_length, State.n] using congrArg List.length hunits
    rw [dec16_unitForms_append_lead hcps hu, scan_nil, ok_bind, hlen]
    exact dec16End_pending hu rfl

/-- Settles O28: `exec_enc16_eq_ok` for valid code points, `exec_enc16_eq_err` for the first other one. -/
theorem enc16EncodesOrRejectsCodePoints : Obligations.Enc16EncodesOrRejectsCodePoints := by
  intro s cps hcps
  refine ⟨fun hinput => exec_enc16_eq_ok.2 ⟨cps, hcps, hinput, rfl⟩, fun bad rest hinput => ⟨fun hrange => ?_,
    fun hsurrogate => ?_⟩⟩
  · exact exec_enc16_eq_err hcps hinput fun w => enc16Elem_error_iff.2 (.inl ⟨hrange, rfl⟩)
  · exact exec_enc16_eq_err hcps hinput fun w => enc16Elem_error_iff.2 (.inr ⟨hsurrogate, rfl⟩)

/-- Settles O29. ENC16 succeeds on valid code points only and writes their units; valid code points have units, and
DEC16 reads them back from these. -/
theorem utf16RoundTrip : Obligations.Utf16RoundTrip := by
  refine fun s => ⟨⟨fun ⟨cps, hcps, hinput⟩ => ?_, fun ⟨out, h⟩ => ?_⟩, fun out s' h hout => ?_⟩
  · exact ⟨_, exec_enc16_eq_ok.2 ⟨cps, hcps, hinput, rfl⟩⟩
  · obtain ⟨cps, hcps, hinput, -⟩ := exec_enc16_eq_ok.1 h
    exact ⟨cps, hcps, hinput⟩
  · obtain ⟨cps, hcps, hinput, rfl⟩ := exec_enc16_eq_ok.1 h
    exact exec_dec16_eq_ok.2 ⟨cps, fun c hc => hasUnits_of_valid (hcps c hc), units_eq_of_input_eq hout, hinput⟩

/-- Settles O30. What DEC16 wrote are code points with units; they are all valid unless one is 0x10FFFF, and then ENC16
fails at the first of these. -/
theorem utf16ConverseRoundTrip : Obligations.Utf16ConverseRoundTrip := by
  refine ⟨fun s s' out h hout => ?_, fun s hunits => ?_⟩
  · obtain ⟨cps, hcps, hunits, rfl⟩ := exec_dec16_eq_ok.1 h
    rw [limit_mem_map_cpLane hcps]
    refine ⟨fun hlimit => ?_, fun hlimit => ?_⟩
    · have hvalid : ∀ c ∈ cps, Valid c := fun c hc =>
        valid_iff_hasUnits_ne.2 ⟨hcps c hc, fun heq => hlimit (heq ▸ hc)⟩
      exact exec_enc16_eq_ok.2 ⟨cps, hvalid, hout, by rw [hunits]⟩
    · obtain ⟨good, rest, rfl, hgood⟩ := List.eq_append_cons_of_mem hlimit
      have hvalid : ∀ c ∈ good, Valid c := fun c hc =>
        valid_iff_hasUnits_ne.2 ⟨hcps c (List.mem_append_left _ hc), fun heq => hgood (heq ▸ hc)⟩
      have hrejects := (enc16EncodesOrRejectsCodePoints s' good hvalid).2 (cpLane 0x10FFFF) (rest.map cpLane)
        (by rw [hout, List.map_append, List.map_cons])
      exact ⟨_, rfl, hrejects.1 (.inr (by decide))⟩
  · have hlimit : ∀ c ∈ [0x10FFFF], HasUnits c := by decide
    exact exec_dec16_eq_ok.2 ⟨[0x10FFFF], hlimit, hunits.trans (by decide), rfl⟩

end Sys2Proof.Machine

/-! SUPPORT. The proofs of 41_utf8.md: the inputs on which DEC8 and ENC8 succeed, what they answer there, and the record
of the first byte or code point that is refused. -/

namespace Sys2Proof.Machine

open Sys2Proof.Safety

/-! ### Byte classes (R99) -/

theorem byteClass_eq_single {b : Byte} : byteClass b = .single ↔ b.toNat < 0x80 := by
  obtain ⟨hb, hc⟩ | ⟨hb, -, hc⟩ | ⟨hb, -, hc⟩ | ⟨hb, -, hc⟩ | ⟨hb, -, hc⟩ | ⟨hb, hc⟩ := byteClass_cases b
  all_goals simp only [hc, reduceCtorEq, true_iff, false_iff]; omega

theorem byteClass_eq_continuation {b : Byte} : byteClass b = .continuation ↔ 0x80 ≤ b.toNat ∧ b.toNat < 0xC0 := by
  obtain ⟨hb, hc⟩ | ⟨hb, hb', hc⟩ | ⟨hb, -, hc⟩ | ⟨hb, -, hc⟩ | ⟨hb, -, hc⟩ | ⟨hb, hc⟩ := byteClass_cases b
  all_goals simp only [hc, reduceCtorEq, true_iff, false_iff]; omega

theorem byteClass_eq_invalid {b : Byte} : byteClass b = .invalid ↔ 0xF8 ≤ b.toNat := by
  obtain ⟨hb, hc⟩ | ⟨-, hb, hc⟩ | ⟨-, hb, hc⟩ | ⟨-, hb, hc⟩ | ⟨-, hb, hc⟩ | ⟨hb, hc⟩ := byteClass_cases b
  all_goals simp only [hc, reduceCtorEq, true_iff, false_iff]; omega

/-- The bits that mark the lead of a sequence of 2 to 4 bytes (R99). -/
def leadMark : Nat → Nat
  | 2 => 0xC0
  | 3 => 0xE0
  | _ => 0xF0

theorem seqLimit_le (len : Nat) : seqLimit len ≤ 0x200000 := by
  unfold seqLimit
  split <;> decide

/-- A byte from 0xC0 to 0xF7 leads a sequence of `k + 2` bytes: its payload is the first bits of values that fit that
length (R99). -/
theorem exists_lead {b : Byte} (hge : 0xC0 ≤ b.toNat) (hlt : b.toNat < 0xF8) :
    ∃ k a, k ≤ 2 ∧ (a + 1) * 0x40 ^ (k + 1) ≤ seqLimit (k + 2) ∧ b = BitVec.ofNat 8 (leadMark (k + 2) + a) ∧
      byteClass b = .lead (BitVec.ofNat 21 a) (BitVec.ofNat 2 (k + 1)) (BitVec.ofNat 3 (k + 2)) := by
  have hmark {k : Nat} (hk : k ≤ b.toNat) : b = BitVec.ofNat 8 (k + (b.toNat - k)) := by
    rw [Nat.add_sub_of_le hk, BitVec.ofNat_toNat, BitVec.setWidth_eq]
  obtain ⟨hb, -⟩ | ⟨-, hb, -⟩ | ⟨-, hb, hc⟩ | ⟨hb, hb', hc⟩ | ⟨hb, -, hc⟩ | ⟨hb, -⟩ := byteClass_cases b
  · omega
  · omega
  · exact ⟨0, b.toNat - 0xC0, by decide, by simp only [seqLimit]; omega, hmark hge, hc⟩
  · exact ⟨1, b.toNat - 0xE0, by decide, by simp only [seqLimit]; omega, hmark hb, hc⟩
  · exact ⟨2, b.toNat - 0xF0, by decide, by simp only [seqLimit]; omega, hmark hb, hc⟩
  · omega

theorem range_of_byteClass_lead {b : Byte} {p : BitVec 21} {r : BitVec 2} {t : BitVec 3}
    (h : byteClass b = .lead p r t) : 0xC0 ≤ b.toNat ∧ b.toNat < 0xF8 := by
  have hsingle : ¬ b.toNat < 0x80 := by simp [← byteClass_eq_single, h]
  have hcontinuation : ¬ (0x80 ≤ b.toNat ∧ b.toNat < 0xC0) := by simp [← byteClass_eq_continuation, h]
  have hinvalid : ¬ 0xF8 ≤ b.toNat := by simp [← byteClass_eq_invalid, h]
  omega

/-! ### The bytes DEC8 refuses (R140, R141, R144, R145) -/

section Refused

variable {m : FourByteMin} {w : Work} {b : Byte}

theorem dec8Elem_continuation_noSequence (h : byteClass b = .continuation) (ha : w.acc = none) :
    dec8Elem m w b = .error ⟨.e8ContWithoutLead, w.stage, w.i, BitVec.ofNat 32 b.toNat⟩ := by
  simp [dec8Elem, h, ha, byteLane_eq]

theorem dec8Elem_invalid (h : byteClass b = .invalid) :
    dec8Elem m w b = .error ⟨.e8InvalidLead, w.stage, w.i, BitVec.ofNat 32 b.toNat⟩ := by
  simp [dec8Elem, h, byteLane_eq]

theorem dec8Elem_single_inSequence {a : BitVec 21} (h : byteClass b = .single) (ha : w.acc = some a) :
    dec8Elem m w b = .error ⟨.e8LowMidSeq, w.stage, w.i, BitVec.ofNat 32 b.toNat⟩ := by
  simp [dec8Elem, h, ha, byteLane_eq]

theorem dec8Elem_lead_inSequence {a p : BitVec 21} {r : BitVec 2} {t : BitVec 3} (h : byteClass b = .lead p r t)
    (ha : w.acc = some a) :
    dec8Elem m w b = .error ⟨.e8NewBeforeEnd, w.stage, w.i, BitVec.ofNat 32 b.toNat⟩ := by
  simp [dec8Elem, h, ha, byteLane_eq]

/-- R145: input that ends while continuation bytes are expected. -/
theorem dec8End_inSequence (h : w.rem ≠ 0) :
    dec8End w = .error ⟨.e8Truncated, w.stage, w.i, w.rem.setWidth 32⟩ := by
  rw [dec8End, if_neg h, raiseHere_eq]

end Refused

/-! ### The count of bytes still to come (R36) -/

theorem ofNat_rem_ne_zero {k : Nat} (h0 : 0 < k) (h4 : k < 4) : BitVec.ofNat 2 k ≠ 0#2 := by
  intro h
  have hk : k % 4 = 0 := congrArg BitVec.toNat h
  omega

theorem setWidth_ofNat_rem {k : Nat} (h4 : k < 4) : (BitVec.ofNat 2 k).setWidth 32 = BitVec.ofNat 32 k := by
  apply BitVec.eq_of_toNat_eq
  simp only [BitVec.toNat_setWidth, BitVec.toNat_ofNat]
  omega

/-! ### DEC8 after accepted sequences -/

section AfterSequences

variable {m : FourByteMin} {qs : List Utf8Seq} {q : Utf8Seq} {j : Nat}

/-- The working registers of DEC8 after the accepted sequences `qs`, with no sequence in progress. -/
def afterSeqs (qs : List Utf8Seq) (w : Work) : Work :=
  { enter .dec8 w with acc := none, rem := 0, tot := 0, i := (seqBytes qs).length,
                       out := qs.map fun q => cpLane q.value }

/-- The working registers of DEC8 after `qs` and the first `j` bytes of `q`. -/
def insideSeq (qs : List Utf8Seq) (q : Utf8Seq) (j : Nat) (w : Work) : Work :=
  { afterSeqs qs w with i := (seqBytes qs).length + j, acc := some (BitVec.ofNat 21 (q.value / 0x40 ^ (q.len - j))),
                        rem := BitVec.ofNat 2 (q.len - j), tot := BitVec.ofNat 3 q.len }

/-- After accepted sequences DEC8 goes on with the bytes that follow them. -/
theorem dec8_seqBytes_append (h : ∀ p ∈ qs, p.Accepted m) (bs : List Byte) (w : Work) :
    dec8 m (seqBytes qs ++ bs) w = scan (dec8Elem m) bs (afterSeqs qs w) >>= dec8End := by
  rw [dec8, scan_append_ok (scan_dec8_seqBytes h ⟨rfl, rfl, rfl⟩)]
  simp [afterSeqs]

/-- After accepted sequences and a proper beginning of a sequence DEC8 is inside that sequence. -/
theorem dec8_seqBytes_append_take (h : ∀ p ∈ qs, p.Accepted m) (hq : q.Fits) (h0 : 0 < j) (hj : j < q.len)
    (bs : List Byte) (w : Work) :
    dec8 m (seqBytes qs ++ q.bytes.take j ++ bs) w = scan (dec8Elem m) bs (insideSeq qs q j w) >>= dec8End := by
  rw [List.append_assoc, dec8_seqBytes_append h, scan_append_ok (scan_dec8_take hq h0 hj rfl)]
  rfl

/-- A loop that fails fails DEC8 with that record. -/
theorem exec_dec8_eq_err {s : State} {bs : List Byte} {v : Work} {e : ErrRecord}
    (hbody : dec8 s.params.fourByteMin s.bytes s.work = scan (dec8Elem s.params.fourByteMin) bs v >>= dec8End)
    (h : scan (dec8Elem s.params.fourByteMin) bs v = .error e) : exec .dec8 s = .next (answered s (.err e)) :=
  exec_eq_answered_err.2 (hbody.trans (bind_eq_error.2 (.inl h)))

/-- A sequence below the least value of its length has more than one byte, and its last one fails (R142, R143). -/
theorem scan_dec8_overlong (hq : q.Fits) (hlow : q.value < seqLeast m q.len) {w : Work} (hw : w.acc = none) :
    scan (dec8Elem m) q.bytes w = .error ⟨.e8Overlong, w.stage, w.i + (q.len - 1), BitVec.ofNat 32 q.value⟩ := by
  obtain ⟨hge, hle, hv⟩ := fits_bounds hq
  have h2 : 2 ≤ q.len := by
    by_contra hlt
    rw [show q.len = 1 by omega] at hlow
    exact Nat.not_lt_zero _ hlow
  have hnot : shortestOk m (BitVec.ofNat 21 q.value) (BitVec.ofNat 3 q.len) = false := by
    rw [← Bool.not_eq_true, shortestOk_iff h2 hle, BitVec.toNat_ofNat, Nat.mod_eq_of_lt hv]
    omega
  rw [scan_dec8_bytes hq h2 hw, dec8Complete_error hnot, setWidth_ofNat_cpLane hv]
  rfl

end AfterSequences

/-! ### DEC8 succeeds on accepted sequences only (R149) -/

/-- The `k` continuation bytes that hold the low `6k` bits of a value (R100). -/
def contBytes : Nat → Nat → List Byte
  | 0, _ => []
  | k + 1, v => BitVec.ofNat 8 (0x80 + v / 0x40 ^ k % 0x40) :: contBytes k v

/-- The layout of R100: a lead with the first bits, then continuation bytes with the others. -/
theorem bytes_eq_lead_contBytes {k : Nat} (hk : k ≤ 2) (v : Nat) :
    Utf8Seq.bytes ⟨k + 2, v⟩ =
      BitVec.ofNat 8 (leadMark (k + 2) + v / 0x40 ^ (k + 1)) :: contBytes (k + 1) v := by
  obtain rfl | rfl | rfl : k = 0 ∨ k = 1 ∨ k = 2 := by omega
  all_goals simp [Utf8Seq.bytes, leadMark, contBytes]

theorem exists_payload_of_continuation {b : Byte} (h : byteClass b = .continuation) :
    ∃ x < 0x40, b = BitVec.ofNat 8 (0x80 + x) := by
  obtain ⟨hge, hlt⟩ := byteClass_eq_continuation.1 h
  refine ⟨b.toNat - 0x80, by omega, ?_⟩
  rw [Nat.add_sub_of_le hge, BitVec.ofNat_toNat, BitVec.setWidth_eq]

/-- What DEC8 holds inside a sequence of `len` bytes with the first bits `a` read and `k` bytes to come (R36). -/
def InSequence (len k a : Nat) (w : Work) : Prop :=
  w.acc = some (BitVec.ofNat 21 a) ∧ w.rem = BitVec.ofNat 2 k ∧ w.tot = BitVec.ofNat 3 len

theorem scan_cons_eq_ok {α : Type} {f : Work → α → Result} {a : α} {as : List α} {w w' : Work} :
    scan f (a :: as) w = .ok w' ↔ ∃ v, f w a = .ok v ∧ scan f as v = .ok w' := by
  rw [scan_cons]
  exact bind_eq_ok

/-- Inside a sequence DEC8 passes a continuation byte only (R140, R141, R144, R145). -/
theorem continuation_of_dec8Elem {m : FourByteMin} {w w' : Work} {a : BitVec 21} {b : Byte} (ha : w.acc = some a)
    (h : dec8Elem m w b = .ok w') : byteClass b = .continuation := by
  obtain ⟨-, hacc, -⟩ | ⟨_, _, _, -, hacc, -⟩ | ⟨_, hb, -⟩ | ⟨_, hb, -⟩ := dec8Elem_ok_cases h
  · simp [ha] at hacc
  · simp [ha] at hacc
  · exact hb
  · exact hb

/-- A loop of DEC8 that starts inside a sequence, and ends where no byte is expected, reads a continuation byte. -/
theorem continuation_of_scan_dec8 {m : FourByteMin} {len k a : Nat} {bs : List Byte} {w w' : Work} (hk : k ≤ 2)
    (hw : InSequence len (k + 1) a w) (h : scan (dec8Elem m) bs w = .ok w') (hend : w'.rem = 0) :
    ∃ x tail v, x < 0x40 ∧ bs = BitVec.ofNat 8 (0x80 + x) :: tail ∧
      dec8Elem m w (BitVec.ofNat 8 (0x80 + x)) = .ok v ∧ scan (dec8Elem m) tail v = .ok w' := by
  obtain ⟨hacc, hr, -⟩ := hw
  have hne : w.rem ≠ 0 := hr ▸ ofNat_rem_ne_zero (by omega) (by omega)
  cases bs with
  | nil => exact absurd (Except.ok.inj h ▸ hend) hne
  | cons b tail =>
    obtain ⟨v, hb, htail⟩ := scan_cons_eq_ok.1 h
    obtain ⟨x, hx, rfl⟩ := exists_payload_of_continuation (continuation_of_dec8Elem hacc hb)
    exact ⟨x, tail, v, hx, rfl, hb, htail⟩

/-- A continuation byte that is not the last leaves one byte less to come, with its payload read (R141). -/
theorem inSequence_of_dec8Elem {m : FourByteMin} {len k a x : Nat} {w w' : Work} (hk : k ≤ 1) (ha : a < 2 ^ 15)
    (hx : x < 0x40) (hw : InSequence len (k + 2) a w) (h : dec8Elem m w (BitVec.ofNat 8 (0x80 + x)) = .ok w') :
    InSequence len (k + 1) (a * 0x40 + x) w' ∧ w'.out = w.out := by
  obtain ⟨hacc, hr, ht⟩ := hw
  have hsub : BitVec.ofNat 2 (k + 1 + 1) - 1#2 = BitVec.ofNat 2 (k + 1) := by
    rw [BitVec.ofNat_add, BitVec.add_sub_cancel]
  have hne : BitVec.ofNat 2 (k + 1) ≠ 0#2 := ofNat_rem_ne_zero (by omega) (by omega)
  rw [dec8Elem_continuation ha hx hacc hr (hsub ▸ hne), hsub] at h
  rw [← Except.ok.inj h]
  exact ⟨⟨rfl, rfl, ht⟩, rfl⟩

/-- The last continuation byte passes the shortest-encoding test, and the value is written (R142, R143). -/
theorem noSequence_of_dec8Elem_last {m : FourByteMin} {len a x : Nat} {w w' : Work} (h2 : 2 ≤ len) (h4 : len ≤ 4)
    (ha : a < 2 ^ 15) (hx : x < 0x40) (hw : InSequence len 1 a w)
    (h : dec8Elem m w (BitVec.ofNat 8 (0x80 + x)) = .ok w') :
    seqLeast m len ≤ a * 0x40 + x ∧ NoSequence w' ∧ w'.out = w.out ++ [cpLane (a * 0x40 + x)] := by
  obtain ⟨hacc, hr, ht⟩ := hw
  have hv : a * 0x40 + x < 2 ^ 21 := by omega
  rw [dec8Elem_last ha hx hacc hr, dec8Complete_eq_ok, ht, shortestOk_iff h2 h4, BitVec.toNat_ofNat,
    Nat.mod_eq_of_lt hv] at h
  obtain ⟨hleast, rfl⟩ := h
  exact ⟨hleast, ⟨rfl, rfl, rfl⟩, by rw [advance_out, emit_out, setWidth_ofNat_cpLane hv]⟩

/-- Inside a sequence with the first bits `a`, a loop of DEC8 that ends where no byte is expected runs over the
continuation bytes of a value with these first bits, which passes the shortest-encoding test, and writes it (R141 to
R143). -/
theorem contBytes_of_scan_dec8 {m : FourByteMin} {len k : Nat} (h2 : 2 ≤ len) (h4 : len ≤ 4) (hk : k ≤ 2) {a : Nat}
    {bs : List Byte} {w w' : Work} (hfit : (a + 1) * 0x40 ^ (k + 1) ≤ 0x200000) (hw : InSequence len (k + 1) a w)
    (h : scan (dec8Elem m) bs w = .ok w') (hend : w'.rem = 0) :
    ∃ v rest w₂, v / 0x40 ^ (k + 1) = a ∧ seqLeast m len ≤ v ∧ bs = contBytes (k + 1) v ++ rest ∧ NoSequence w₂ ∧
      w₂.out = w.out ++ [cpLane v] ∧ scan (dec8Elem m) rest w₂ = .ok w' := by
  induction k generalizing a bs w with
  | zero =>
    obtain ⟨x, tail, w₁, hx, rfl, hb, htail⟩ := continuation_of_scan_dec8 hk hw h hend
    obtain ⟨hleast, hw₁, hout⟩ := noSequence_of_dec8Elem_last h2 h4 (by omega) hx hw hb
    have hlow : (a * 0x40 + x) / 0x40 ^ 0 % 0x40 = x := by omega
    exact ⟨a * 0x40 + x, tail, w₁, by omega, hleast, by rw [contBytes, hlow]; rfl, hw₁, hout, htail⟩
  | succ k ih =>
    obtain ⟨x, tail, w₁, hx, rfl, hb, htail⟩ := continuation_of_scan_dec8 hk hw h hend
    have ha : a < 2 ^ 15 := by
      have hpow : 0x40 ^ 1 ≤ 0x40 ^ (k + 2) := Nat.pow_le_pow_right (by decide) (by omega)
      have hmul := (Nat.mul_le_mul_left (a + 1) hpow).trans hfit
      omega
    obtain ⟨hw₁, hout₁⟩ := inSequence_of_dec8Elem (by omega) ha hx hw hb
    have hfit' : (a * 0x40 + x + 1) * 0x40 ^ (k + 1) ≤ 0x200000 := calc
      _ ≤ (a + 1) * 0x40 * 0x40 ^ (k + 1) := Nat.mul_le_mul_right _ (by omega)
      _ = (a + 1) * 0x40 ^ (k + 2) := by ring
      _ ≤ _ := hfit
    obtain ⟨v, rest, w₂, hv, hleast, rfl, hw₂, hout₂, hrest⟩ := ih (by omega) hfit' hw₁ htail
    have hhigh : v / 0x40 ^ (k + 2) = a := by
      rw [pow_succ, ← Nat.div_div_eq_div_mul, hv]
      omega
    have hlow : v / 0x40 ^ (k + 1) % 0x40 = x := by
      rw [hv]
      omega
    have hbytes : contBytes (k + 2) v = BitVec.ofNat 8 (0x80 + x) :: contBytes (k + 1) v := by
      rw [← hlow]
      rfl
    exact ⟨v, rest, w₂, hhigh, hleast, by rw [hbytes]; rfl, hw₂, hout₁ ▸ hout₂, hrest⟩

/-- Between two sequences, a loop of DEC8 that ends where no byte is expected begins with one accepted sequence and
writes its value (R140 to R144). -/
theorem accepted_of_scan_dec8_cons {m : FourByteMin} {b : Byte} {bs : List Byte} {w w' : Work} (hw : NoSequence w)
    (h : scan (dec8Elem m) (b :: bs) w = .ok w') (hend : w'.rem = 0) :
    ∃ q rest w₂, Utf8Seq.Accepted m q ∧ b :: bs = q.bytes ++ rest ∧ NoSequence w₂ ∧
      w₂.out = w.out ++ [cpLane q.value] ∧ scan (dec8Elem m) rest w₂ = .ok w' := by
  obtain ⟨w₁, hb, htail⟩ := scan_cons_eq_ok.1 h
  obtain ⟨hacc, hrem, htot⟩ := hw
  obtain ⟨hclass, -, rfl⟩ | ⟨p, r, t, hclass, -, rfl⟩ | ⟨a, -, ha, -⟩ | ⟨a, -, ha, -⟩ := dec8Elem_ok_cases hb
  · have hlt := byteClass_eq_single.1 hclass
    refine ⟨⟨1, b.toNat⟩, bs, advance (emit [byteLane b] w), ⟨hlt, Nat.zero_le _⟩, ?_, ⟨hacc, hrem, htot⟩, ?_, htail⟩
    · simp [Utf8Seq.bytes]
    · rw [byteLane_eq]
      rfl
  · obtain ⟨hge, hlt⟩ := range_of_byteClass_lead hclass
    obtain ⟨k, a, hk, hfit, rfl, hseed⟩ := exists_lead hge hlt
    obtain ⟨rfl, rfl, rfl⟩ : p = BitVec.ofNat 21 a ∧ r = BitVec.ofNat 2 (k + 1) ∧ t = BitVec.ofNat 3 (k + 2) := by
      simpa [hseed, eq_comm] using hclass
    obtain ⟨v, rest, w₂, hv, hleast, rfl, hw₂, hout, hrest⟩ := contBytes_of_scan_dec8 (len := k + 2) (by omega)
      (by omega) hk (hfit.trans (seqLimit_le _)) ⟨rfl, rfl, rfl⟩ htail hend
    have hfits : v < seqLimit (k + 2) :=
      (Nat.lt_mul_of_div_lt (show v / 0x40 ^ (k + 1) < a + 1 by omega) (Nat.pow_pos (by decide))).trans_le hfit
    refine ⟨⟨k + 2, v⟩, rest, w₂, ⟨hfits, hleast⟩, ?_, hw₂, hout, hrest⟩
    rw [bytes_eq_lead_contBytes hk, hv]
    rfl
  · simp [hacc] at ha
  · simp [hacc] at ha

/-- The converse of `scan_dec8_seqBytes`: a loop of DEC8 from between two sequences to where no byte is expected ran
over accepted sequences, and wrote their values (R149). -/
theorem seqBytes_of_scan_dec8 {m : FourByteMin} : ∀ {bs : List Byte} {w w' : Work}, NoSequence w →
    scan (dec8Elem m) bs w = .ok w' → w'.rem = 0 →
    ∃ qs : List Utf8Seq, (∀ q ∈ qs, q.Accepted m) ∧ bs = seqBytes qs ∧ w'.out = w.out ++ qs.map fun q => cpLane q.value
  | [], w, w', _, h, _ => ⟨[], by simp, rfl, by simp [Except.ok.inj h]⟩
  | b :: bs, w, w', hw, h, hend => by
    obtain ⟨q, rest, w₂, hq, hbytes, hw₂, hout, hrest⟩ := accepted_of_scan_dec8_cons hw h hend
    have hshorter : rest.length ≤ bs.length := by
      have hone : 1 ≤ q.bytes.length := bytes_length_of_fits hq.1 ▸ (fits_bounds hq.1).1
      have hlen := congrArg List.length hbytes
      rw [List.length_append, List.length_cons] at hlen
      omega
    obtain ⟨qs, hqs, rfl, hwrote⟩ := seqBytes_of_scan_dec8 hw₂ hrest hend
    refine ⟨q :: qs, List.forall_mem_cons.2 ⟨hq, hqs⟩, hbytes, ?_⟩
    rw [hwrote, hout, List.append_assoc]
    rfl
termination_by bs => bs.length

/-- DEC8 answers an output exactly on accepted sequences, and writes their values (R146, R149). -/
theorem exec_dec8_eq_ok {s : State} {out : List Lane} :
    exec .dec8 s = .next (answered s (.ok out)) ↔
      ∃ qs : List Utf8Seq, (∀ q ∈ qs, q.Accepted s.params.fourByteMin) ∧ s.bytes = seqBytes qs ∧
        out = qs.map fun q => cpLane q.value := by
  constructor
  · intro h
    obtain ⟨w, hbody, rfl⟩ := exec_eq_answered_ok.1 h
    obtain ⟨v, hscan, hend⟩ := bind_eq_ok.1 hbody
    obtain ⟨hrem, rfl⟩ := dec8End_eq_ok.1 hend
    exact seqBytes_of_scan_dec8 ⟨rfl, rfl, rfl⟩ hscan hrem
  · rintro ⟨qs, hqs, hbytes, rfl⟩
    exact dec8DecodesAcceptedSequences s qs hqs hbytes

/-! ### ENC8 (R150) -/

theorem enc8_inRange {cps : List Nat} (h : ∀ c ∈ cps, c < 0x10FFFF) (w : Work) :
    enc8 (cps.map cpLane) w = .ok { enter .enc8 w with i := cps.length, out := byteLanes (utf8Forms cps) } := by
  rw [enc8, scan_enc8_inRange h, byteLanes_eq]
  simp

/-- ENC8 answers an output exactly on code points in range, and writes their shortest forms (R150). -/
theorem exec_enc8_eq_ok {s : State} {out : List Lane} :
    exec .enc8 s = .next (answered s (.ok out)) ↔
      ∃ cps : List Nat, (∀ c ∈ cps, c < 0x10FFFF) ∧ s.input = cps.map cpLane ∧ out = byteLanes (utf8Forms cps) := by
  have hbody {cps : List Nat} (hcps : ∀ c ∈ cps, c < 0x10FFFF) (hinput : s.input = cps.map cpLane) :
      bodyOf .enc8 s = .ok { enter .enc8 s.work with i := cps.length, out := byteLanes (utf8Forms cps) } := by
    rw [← enc8_inRange hcps, ← hinput]
    rfl
  rw [exec_eq_answered_ok]
  constructor
  · rintro ⟨w, hw, rfl⟩
    have hrange : ∀ c ∈ s.input.map BitVec.toNat, c < 0x10FFFF := List.forall_mem_map.2 (inRange_of_scan_enc8 hw)
    have hinput : s.input = (s.input.map BitVec.toNat).map cpLane := (map_cpLane_toNat _).symm
    rw [hbody hrange hinput] at hw
    exact ⟨_, hrange, hinput, by rw [← Except.ok.inj hw]⟩
  · rintro ⟨cps, hcps, hinput, rfl⟩
    exact ⟨_, hbody hcps hinput, rfl⟩

/-- The shortest form of a code point as a sequence (R100). -/
def shortestSeq (c : Nat) : Utf8Seq := { len := shortestLen c, value := c }

theorem seqBytes_shortestSeq (cps : List Nat) : seqBytes (cps.map shortestSeq) = utf8Forms cps := by
  rw [seqBytes, List.flatMap_map]
  rfl

/-! ### Surrogates in UTF-8 (R152) -/

/-- Two adjacent bytes do not begin the encoding of a surrogate. -/
def NoSurrogateLead (a b : Lane) : Prop := a = 0xED#32 → b.toNat < 0xA0

/-- In the shortest form of a valid code point 0xED can only lead, in 0xED 0x80 to 0xED 0x9F. -/
theorem utf8Form_noSurrogateLead {c : Nat} (h : Valid c) :
    (byteLanes (utf8Form c)).IsChain NoSurrogateLead ∧
      (byteLanes (utf8Form c)).getLast? ≠ some 0xED#32 := by
  obtain ⟨hlt, hs⟩ := h
  unfold utf8Form shortestLen
  split_ifs
  all_goals
    simp [byteLanes, Utf8Seq.bytes, NoSurrogateLead, ← BitVec.toNat_inj]
    omega

theorem utf8Forms_noSurrogateLead {cps : List Nat} (h : ∀ c ∈ cps, Valid c) :
    (byteLanes (utf8Forms cps)).IsChain NoSurrogateLead := by
  induction cps with
  | nil => exact .nil
  | cons c cps ih =>
    obtain ⟨hc, hcps⟩ := List.forall_mem_cons.1 h
    obtain ⟨hchain, hlast⟩ := utf8Form_noSurrogateLead hc
    have hcons : byteLanes (utf8Forms (c :: cps)) = byteLanes (utf8Form c) ++ byteLanes (utf8Forms cps) := by
      simp [utf8Forms, byteLanes]
    rw [hcons, List.isChain_append]
    exact ⟨hchain, ih hcps, fun _ hl _ _ heq => absurd (heq ▸ hl) hlast⟩

/-! ### The statements -/

/-- Settles O32: an output means accepted sequences (`exec_dec8_eq_ok`), each of at least one byte. -/
theorem dec8SucceedsOnlyOnAcceptedSequences : Obligations.Dec8SucceedsOnlyOnAcceptedSequences := by
  intro s out h
  obtain ⟨qs, hqs, hbytes, hout⟩ := exec_dec8_eq_ok.1 h
  obtain ⟨-, -, hlen, -⟩ := outputLengthIsBounded s out
  exact ⟨qs, hqs, hbytes, hout, hlen h⟩

/-- Settles O33, one byte class at a time. No sequence is in progress after `qs`, and one is after `j` bytes of `q`; the
byte that cannot stand there fails, and nothing after it is read. -/
theorem dec8RejectsMisplacedBytes : Obligations.Dec8RejectsMisplacedBytes := by
  intro s qs b rest hqs
  constructor
  · intro hbytes
    have hbody := dec8_seqBytes_append hqs (b :: rest) s.work
    rw [← hbytes] at hbody
    refine ⟨fun ⟨hge, hle⟩ => ?continuation, fun hge => ?invalid⟩
    case continuation =>
      have hclass : byteClass b = .continuation := byteClass_eq_continuation.2 ⟨hge, by omega⟩
      exact exec_dec8_eq_err hbody (scan_cons_error (dec8Elem_continuation_noSequence hclass rfl))
    case invalid => exact exec_dec8_eq_err hbody (scan_cons_error (dec8Elem_invalid (byteClass_eq_invalid.2 hge)))
  · intro q j hq h0 hj hbytes
    have hbody := dec8_seqBytes_append_take hqs hq h0 hj (b :: rest) s.work
    rw [← hbytes] at hbody
    refine ⟨fun hle => ?low, fun ⟨hge, hle⟩ => ?lead, fun hge => ?invalid⟩
    case low =>
      have hclass : byteClass b = .single := byteClass_eq_single.2 (by omega)
      exact exec_dec8_eq_err hbody (scan_cons_error (dec8Elem_single_inSequence hclass rfl))
    case lead =>
      obtain ⟨_, _, -, -, -, hclass⟩ := exists_lead hge (by omega)
      exact exec_dec8_eq_err hbody (scan_cons_error (dec8Elem_lead_inSequence hclass rfl))
    case invalid => exact exec_dec8_eq_err hbody (scan_cons_error (dec8Elem_invalid (byteClass_eq_invalid.2 hge)))

/-- Settles O34: the completion step of the sequence fails (`scan_dec8_overlong`), and nothing after it is read. -/
theorem dec8RejectsOverlongSequences : Obligations.Dec8RejectsOverlongSequences := by
  intro s qs q rest hqs hq hlow hbytes
  have hbody := dec8_seqBytes_append hqs (q.bytes ++ rest) s.work
  rw [← List.append_assoc, ← hbytes] at hbody
  refine exec_dec8_eq_err hbody ?_
  rw [scan_append, scan_dec8_overlong hq hlow rfl]
  rfl

/-- Settles O35: the end check finds the `q.len - j` bytes still to come (`dec8End_inSequence`). -/
theorem dec8RejectsTruncatedSequence : Obligations.Dec8RejectsTruncatedSequence := by
  intro s qs q j hqs hq h0 hj hbytes
  obtain ⟨-, hle, -⟩ := fits_bounds hq
  have hlen : s.input.length = (seqBytes qs).length + j := by
    have htake : (q.bytes.take j).length = j := by
      rw [List.length_take, bytes_length_of_fits hq, Nat.min_eq_left hj.le]
    rw [← htake, ← List.length_append, ← hbytes, bytes_length, State.n]
  have hbody := dec8_seqBytes_append_take hqs hq h0 hj [] s.work
  rw [List.append_nil, ← hbytes, scan_nil, ok_bind] at hbody
  rw [hlen, ← setWidth_ofNat_rem (show q.len - j < 4 by omega)]
  exact exec_eq_answered_err.2 (hbody.trans (dec8End_inSequence (ofNat_rem_ne_zero (by omega) (by omega))))

/-- Settles O37: `exec_enc8_eq_ok` for code points in range; the first other one fails its range check. -/
theorem enc8EncodesOrRejectsCodePoints : Obligations.Enc8EncodesOrRejectsCodePoints := by
  intro s cps hcps
  refine ⟨fun hinput => exec_enc8_eq_ok.2 ⟨cps, hcps, hinput, rfl⟩, fun bad rest hinput hbad => ?_⟩
  have hbody : bodyOf .enc8 s = enc8 (cps.map cpLane ++ bad :: rest) s.work := hinput ▸ rfl
  rw [exec_eq_answered_err, hbody, enc8, scan_append_ok (scan_enc8_inRange hcps _),
    scan_cons_error (enc8Elem_error_iff.2 ⟨hbad, rfl⟩)]
  simp

/-- Settles O38: the shortest forms ENC8 writes are accepted sequences under every setting (`shortest_accepted`). -/
theorem utf8RoundTrip : Obligations.Utf8RoundTrip := by
  intro s cps hcps hinput
  refine ⟨_, exec_enc8_eq_ok.2 ⟨cps, hcps, hinput, rfl⟩, fun s' hout => ?_⟩
  refine exec_dec8_eq_ok.2 ⟨cps.map shortestSeq, ?_, ?_, ?_⟩
  · exact List.forall_mem_map.2 fun c hc => shortest_accepted (hcps c hc) _
  · rw [bytes_eq_of_input_eq hout, seqBytes_shortestSeq]
  · rw [hinput, List.map_map]
    rfl

/-- Settles O39. What both operations accept are valid code points, and no shortest form of these holds the two bytes
(`utf8Forms_noSurrogateLead`). -/
theorem enc8AfterDec16HasNoSurrogate : Obligations.Enc8AfterDec16HasNoSurrogate := by
  rintro s s' out bs hdec hout henc l r b rfl
  obtain ⟨cps, hunits, -, rfl⟩ := exec_dec16_eq_ok.1 hdec
  obtain ⟨cps', hrange, hinput, hbytes⟩ := exec_enc8_eq_ok.1 henc
  have hvalid : ∀ c ∈ cps', Valid c := by
    intro c hc
    have hlt := hrange c hc
    have hmem : cpLane c ∈ cps.map cpLane := by
      rw [← hout, hinput]
      exact List.mem_map_of_mem hc
    obtain ⟨d, hd, heq⟩ := List.mem_map.1 hmem
    obtain ⟨hle, hs⟩ := hunits d hd
    have hval : d = c := by
      rw [← cpLane_toNat (show d < 2 ^ 32 by omega), heq, cpLane_toNat (by omega)]
    exact ⟨hlt, hval ▸ hs⟩
  have hchain := utf8Forms_noSurrogateLead hvalid
  rw [← hbytes, List.isChain_append_cons_cons] at hchain
  obtain ⟨-, hpair, -⟩ := hchain
  exact hpair rfl

/-- Settles O36: the three are the sequences of 2, 3 and 4 bytes for the value 0, below the least of their lengths under
every setting. -/
theorem overlongNulIsRejected : Obligations.OverlongNulIsRejected := by
  intro s
  have hreject (q : Utf8Seq) (hq : q.Fits) (hlow : q.value < seqLeast s.params.fourByteMin q.len)
      (hbytes : s.bytes = q.bytes) :
      exec .dec8 s = .next (answered s (.err ⟨.e8Overlong, .dec8, q.len - 1, BitVec.ofNat 32 q.value⟩)) := by
    have hshape : s.bytes = seqBytes [] ++ q.bytes ++ [] := by simpa [seqBytes] using hbytes
    simpa [seqBytes] using dec8RejectsOverlongSequences s [] q [] (by simp) hq hlow hshape
  have hbound : 0 < fourByteBound s.params.fourByteMin := by cases s.params.fourByteMin <;> decide
  exact ⟨hreject ⟨2, 0⟩ (by decide) (show 0 < 0x80 by decide), hreject ⟨3, 0⟩ (by decide) (show 0 < 0x800 by decide),
    hreject ⟨4, 0⟩ (by decide) hbound⟩

end Sys2Proof.Machine

/-! SUPPORT. The proofs of 42_type7.md: the keystream, what VALIDATE passes and refuses, the responses of T7DEC and
T7ENC from the responses of their stages, and the round trip. -/

namespace Sys2Proof.Machine

open Sys2Proof.Safety

/-! ### The keystream (R170 to R173) -/

/-- Offsets 54 apart meet the same key entries (R170). -/
theorem keystreamXor_add_len (k : KeyTable) (o : Nat) (bs : List Byte) :
    keystreamXor k (o + 54) bs = keystreamXor k o bs := by
  have hentry (i : Nat) : (o + 54 + i) % 54 = (o + i) % 54 := by omega
  simp only [keystreamXor, hentry]

/-- A key entry has 7 bits, so the keystream leaves bit 7 of every byte (R172). -/
theorem keystreamXor_getLsbD_seven (k : KeyTable) (o : Nat) (bs : List Byte) :
    (keystreamXor k o bs).map (fun b => b.getLsbD 7) = bs.map fun b => b.getLsbD 7 := by
  apply List.ext_getElem <;> simp [keystreamXor]

theorem byteLane_getLsbD_seven (b : Byte) : (byteLane b).getLsbD 7 = b.getLsbD 7 := by
  simp [byteLane]

/-! ### The statements about KSX -/

/-- Settles O40: the loop of KSX is `scan_ksx`, and no element of it can fail. -/
theorem ksxXorsTheKeystream : Obligations.KsxXorsTheKeystream := by
  intro s o
  rw [exec_ksx, byteLanes_eq]

/-- Settles O41: xoring the same keystream twice gives the bytes back (`keystreamXor_keystreamXor`). -/
theorem ksxIsAnInvolution : Obligations.KsxIsAnInvolution := by
  refine fun s o => ⟨_, ksxXorsTheKeystream s o, fun s' hkey hinput => ?_⟩
  rw [ksxXorsTheKeystream, bytes_eq_of_input_eq hinput, hkey, keystreamXor_keystreamXor]

/-- Settles O42: the keystream has period 54 (`keystreamXor_add_len`), and its bytes have bit 7 clear
(`keystreamXor_getLsbD_seven`). -/
theorem ksxPeriodAndHighBit : Obligations.KsxPeriodAndHighBit := by
  refine fun s o => ⟨?period, _, exec_ksx s o, ?highBit⟩
  case period => rw [exec_ksx, exec_ksx, keystreamXor_add_len]
  case highBit =>
    rw [List.map_map, ← keystreamXor_getLsbD_seven s.params.keyTable o s.bytes]
    exact List.map_congr_left fun b _ => byteLane_getLsbD_seven b

/-! ### VALIDATE (R176) -/

/-- All one unit of VALIDATE can pass: a digit at index 0 or 1, a hex digit from index 2 on. -/
theorem validateElem_eq_ok {w w' : Work} {u : CodeUnit} :
    validateElem w u = .ok w' ↔ (if w.i < 2 then IsDigit u else IsHex u) ∧ w' = advance w := by
  rw [← isDigit_iff, ← isHex_iff]
  unfold validateElem
  split
  · cases isDigit u <;> simp [eq_comm]
  · cases isHex u <;> simp [eq_comm]

/-- From index 2 on, VALIDATE passes hex digits only. -/
theorem isHex_of_scan_validate {t : List CodeUnit} {w w' : Work} (hw : 2 ≤ w.i)
    (h : scan validateElem t w = .ok w') : ∀ u ∈ t, IsHex u := by
  induction t generalizing w with
  | nil => simp
  | cons u t ih =>
    obtain ⟨v, hu, ht⟩ := scan_cons_eq_ok.1 h
    obtain ⟨hhex, rfl⟩ := validateElem_eq_ok.1 hu
    rw [if_neg (Nat.not_lt.2 hw)] at hhex
    exact List.forall_mem_cons.2 ⟨hhex, ih (Nat.le_succ_of_le hw) ht⟩

theorem validate_odd {t : List CodeUnit} (h : t.length % 2 = 1) (w : Work) :
    validate t w = .error ⟨.e7Parity, .validate, t.length, natValue ErrCode.e7Parity.code t.length⟩ := by
  rw [validate, if_pos h, raise_eq, enter_stage]

theorem validate_nil (w : Work) :
    validate [] w = .error ⟨.e7TooShort, .validate, 0, natValue ErrCode.e7TooShort.code 0⟩ := rfl

/-- A text of even length that is not empty goes to the digit checks. -/
theorem validate_even {t : List CodeUnit} (heven : t.length % 2 = 0) (h2 : 2 ≤ t.length) (w : Work) :
    validate t w = scan validateElem t (enter .validate w) := by
  rw [validate, if_neg (by omega), if_neg (by omega)]

/-- VALIDATE passes the texts of the grammar of R102 only; `validate_type7` is the converse. -/
theorem isType7Text_of_validate {t : List CodeUnit} {w w' : Work} (h : validate t w = .ok w') : IsType7Text t := by
  by_cases hodd : t.length % 2 = 1
  · simp [validate_odd hodd] at h
  match t with
  | [] => simp [validate_nil] at h
  | [_] => simp at hodd
  | a :: b :: hash =>
    have heven : (a :: b :: hash).length % 2 = 0 := by omega
    rw [validate_even heven (by simp)] at h
    obtain ⟨_, ha, h⟩ := scan_cons_eq_ok.1 h
    obtain ⟨hdigit, rfl⟩ := validateElem_eq_ok.1 ha
    obtain ⟨_, hb, h⟩ := scan_cons_eq_ok.1 h
    obtain ⟨hdigit', rfl⟩ := validateElem_eq_ok.1 hb
    have hhash := isHex_of_scan_validate (by simp) h
    simp only [enter_i, advance_i, Nat.zero_add, Nat.one_lt_two, Nat.zero_lt_two, if_true] at hdigit hdigit'
    exact ⟨by simp, heven, by simpa using And.intro hdigit hdigit', by simpa using hhash⟩

/-- Settles O22. What VALIDATE passes is type-7 text (`isType7Text_of_validate`), PARSE never fails (`parse_eq`), and
neither the port nor an operation raises E7_HEX (`bodyOf_raises`). -/
theorem hexDecodingNeverFails : Obligations.HexDecodingNeverFails := by
  refine ⟨fun t w v h => ?_, fun s e hs hstep => ?_⟩
  · obtain ⟨-, -, -, hhash⟩ := isType7Text_of_validate h
    exact ⟨hhash, _, parse_eq t v⟩
  · cases hp : portAction s with
    | wait => simp [portAction_eq_wait.1 hp] at hs
    | reject e' =>
      rw [step_of_reject hp, Host.Outcome.next.injEq, answered_inj, Response.err.injEq] at hstep
      obtain ⟨-, ⟨_, -, rfl⟩ | ⟨_, _, -, -, -, rfl⟩⟩ := portAction_eq_reject.1 hp
      · simp [← hstep, illegalOp]
      · simp [← hstep, capacityError]
    | perform i =>
      rw [step_of_perform hp, exec_eq_answered_err] at hstep
      obtain ⟨hhex, -, -⟩ := bodyOf_raises i s e hstep
      exact hhex

/-- The salt part of the VALIDATE scan over digits only moves on. -/
theorem scan_validate_salt {t : List CodeUnit} (h : ∀ u ∈ t, IsDigit u) {w : Work} (hw : w.i + t.length ≤ 2) :
    scan validateElem t w = .ok { w with i := w.i + t.length } := by
  induction t generalizing w with
  | nil => simp
  | cons u t ih =>
    obtain ⟨hu, ht⟩ := List.forall_mem_cons.1 h
    rw [List.length_cons] at hw
    have hok : validateElem w u = .ok (advance w) := validateElem_eq_ok.2 ⟨by rwa [if_pos (by omega)], rfl⟩
    rw [scan_cons_ok hok, ih ht (by rw [advance_i]; omega)]
    simp [advance, Nat.add_assoc, Nat.add_comm 1]

/-- The VALIDATE scan over two salt digits and hex digits only moves on. -/
theorem scan_validate_digits {t : List CodeUnit} (h2 : 2 ≤ t.length) (hsalt : ∀ u ∈ t.take 2, IsDigit u)
    (hhash : ∀ u ∈ t.drop 2, IsHex u) {w : Work} (hw : w.i = 0) :
    scan validateElem t w = .ok { w with i := t.length } := by
  have htake : (t.take 2).length = 2 := by rw [List.length_take, Nat.min_eq_left h2]
  conv_lhs => rw [← List.take_append_drop 2 t]
  rw [scan_append_ok (scan_validate_salt hsalt (by omega)),
    scan_validate_hash (fun u hu => isHex_iff.2 (hhash u hu)) (by simp only; omega)]
  simp only [List.length_drop, htake, hw, Nat.zero_add, Nat.add_sub_cancel' h2]

theorem validateElem_salt_error {w : Work} {u : CodeUnit} (hw : w.i < 2) (hu : ¬ IsDigit u) :
    validateElem w u = .error ⟨.e7SaltDigit, w.stage, w.i, BitVec.ofNat 32 u.toNat⟩ := by
  rw [← isDigit_iff] at hu
  rw [validateElem, if_pos hw, if_neg hu, raiseHere_eq, unitLane_eq]

theorem validateElem_hash_error {w : Work} {u : CodeUnit} (hw : 2 ≤ w.i) (hu : ¬ IsHex u) :
    validateElem w u = .error ⟨.e7HashDigit, w.stage, w.i, BitVec.ofNat 32 u.toNat⟩ := by
  rw [← isHex_iff] at hu
  rw [validateElem, if_neg (Nat.not_lt.2 hw), if_neg hu, raiseHere_eq, unitLane_eq]

/-- VALIDATE fails at the first unit its scan refuses, whatever follows it (R215). -/
theorem validate_error_of_scan {good rest : List CodeUnit} {bad : CodeUnit} {w v : Work} {e : ErrRecord}
    (heven : (good ++ bad :: rest).length % 2 = 0) (hgood : scan validateElem good (enter .validate w) = .ok v)
    (hbad : validateElem v bad = .error e) : validate (good ++ bad :: rest) w = .error e := by
  have h2 : 2 ≤ (good ++ bad :: rest).length := by
    rw [List.length_append, List.length_cons] at heven ⊢
    omega
  rw [validate_even heven h2, scan_append_ok hgood, scan_cons_error hbad]

/-- An error of VALIDATE ends T7DEC with that record (R179). -/
theorem exec_t7dec_of_validate_error {s : State} {e : ErrRecord} (h : ∀ w, validate s.units w = .error e) :
    exec .t7dec s = .next (answered s (.err e)) :=
  exec_eq_answered_err.2 (bind_eq_error.2 (.inl (h _)))

/-- Settles O43: the four errors of VALIDATE in the order it looks for them. -/
theorem t7decReportsFormatErrorsInOrder : Obligations.T7decReportsFormatErrorsInOrder := by
  intro s
  have hlen : s.units.length = s.input.length := units_length s
  refine ⟨fun hodd => ?parity, fun hempty => ?tooShort, fun good bad rest hunits heven =>
    ⟨fun h2 hdigits hbad => ?salt, fun h2 hsalt hhash hbad => ?hash⟩⟩
  case parity =>
    rw [← hlen] at hodd ⊢
    exact ⟨_, natValue_toNat _, exec_t7dec_of_validate_error (validate_odd hodd)⟩
  case tooShort =>
    have hunits : s.units = [] := by rw [State.units, hempty, List.map_nil]
    exact exec_t7dec_of_validate_error fun w => by rw [hunits, validate_nil]; rfl
  all_goals
    rw [← hlen, hunits] at heven
    refine exec_t7dec_of_validate_error fun w => ?_
    rw [hunits]
  case salt =>
    have hscan : scan validateElem good (enter .validate w) = .ok { enter .validate w with i := good.length } := by
      rw [scan_validate_salt hdigits (by rw [enter_i]; omega), enter_i, Nat.zero_add]
    exact validate_error_of_scan heven hscan (validateElem_salt_error h2 hbad)
  case hash =>
    exact validate_error_of_scan heven (scan_validate_digits h2 hsalt hhash rfl) (validateElem_hash_error h2 hbad)

/-! ### Responses of stages in sequence (R179) -/

/-- An operation answers the response of its body and no other. -/
theorem exec_eq_next_answered {i : Instr} {s : State} {r : Response} :
    exec i s = .next (answered s r) ↔ responseOf (bodyOf i s) = r := by
  rw [exec_eq_answered, Host.Outcome.next.injEq, answered_inj]

/-- An error of the first stage is the response of the sequence. -/
theorem responseOf_bind_err {r : Result} {f : Work → Result} {e : ErrRecord} (h : responseOf r = .err e) :
    responseOf (r >>= f) = .err e :=
  responseOf_eq_err.2 (bind_eq_error.2 (.inl (responseOf_eq_err.1 h)))

/-- After an output of the first stage the response of the sequence is the second stage's. -/
theorem responseOf_bind_ok {r : Result} {f : Work → Result} {out : List Lane} {r' : Response}
    (h : responseOf r = .ok out) (hf : ∀ w, w.out = out → responseOf (f w) = r') : responseOf (r >>= f) = r' := by
  obtain ⟨w, rfl, hout⟩ := responseOf_eq_ok.1 h
  exact hf w hout

/-- The request of a stage: that of `s` with `ls` as its input. -/
def State.withInput (s : State) (ls : List Lane) : State := { s with input := ls }

@[simp] theorem State.withInput_params (s : State) (ls : List Lane) : (s.withInput ls).params = s.params := rfl

@[simp] theorem State.withInput_input (s : State) (ls : List Lane) : (s.withInput ls).input = ls := rfl

/-! ### T7DEC on type-7 text (R175 to R177, R180) -/

/-- On a type-7 text T7DEC reads its salt and hash and decrypts the hash; DEC8 and ENC16 are left. -/
theorem t7dec_type7Text {o : Nat} (ho : o ≤ 99) (p : Params) (c : List Byte) (w : Work) :
    ∃ v, t7dec p (type7Text o c) w =
      dec8 p.fourByteMin (keystreamXor p.keyTable o c) v >>= fun w => enc16 w.out { w with cps := w.out } := by
  have hsalt : (BitVec.ofNat 7 o).toNat = o := by
    rw [BitVec.toNat_ofNat]
    omega
  rw [t7dec, validate_type7 (isType7Text_type7Text ho c), ok_bind, parse_type7Text ho, ok_bind, ksx_eq, ok_bind]
  simp only [hsalt, map_laneByte_byteLane]
  exact ⟨_, rfl⟩

/-- Settles O45. The stages before DEC8 cannot fail on a type-7 text (`t7dec_type7Text`), and the responses of DEC8 and
ENC16 do not depend on the working registers the stages start from. -/
theorem t7decIsItsStagesComposed : Obligations.T7decIsItsStagesComposed := by
  intro s s₁ s₂ o c r₁ r₂ ho hunits hparams hbytes hdec8
  obtain ⟨v, hbody⟩ := t7dec_type7Text ho s.params c s.work
  have hdec8' : responseOf (dec8 s.params.fourByteMin (keystreamXor s.params.keyTable o c) v) = r₁ := by
    rw [← hbytes, ← hparams, dec8_response _ _ v s₁.work]
    exact exec_eq_next_answered.1 hdec8
  simp only [exec_eq_next_answered, bodyOf, hunits, hbody]
  refine ⟨fun e he => ?error, fun cps hcps hinput henc16 => ?output⟩
  case error => exact responseOf_bind_err (hdec8'.trans he)
  case output =>
    refine responseOf_bind_ok (hdec8'.trans hcps) fun w hout => ?_
    rw [hout, enc16_response cps _ s₂.work, ← henc16, State.codePoints, hinput]

/-- Settles O44: DEC8 completes on the decrypted bytes, and ENC16 on the valid code points it writes. -/
theorem t7decDecodesEncryptedText : Obligations.T7decDecodesEncryptedText := by
  intro s o qs ho hqs hunits
  have hvalid : ∀ c ∈ qs.map Utf8Seq.value, Valid c := List.forall_mem_map.2 fun q hq => (hqs q hq).2
  have hdec8 := dec8DecodesAcceptedSequences (s.withInput (byteLanes (seqBytes qs))) qs (fun q hq => (hqs q hq).1)
    (bytes_eq_of_input_eq (s.withInput_input _))
  have henc16 := exec_enc16_eq_ok.2 ⟨_, hvalid, s.withInput_input _, rfl⟩
  have hbytes : (s.withInput (byteLanes (seqBytes qs))).bytes =
      keystreamXor s.params.keyTable o (keystreamXor s.params.keyTable o (seqBytes qs)) := by
    rw [bytes_eq_of_input_eq (s.withInput_input _), keystreamXor_keystreamXor]
  obtain ⟨-, hcomposed⟩ := t7decIsItsStagesComposed s (s.withInput (byteLanes (seqBytes qs))) _ o _ _ _ ho hunits
    (s.withInput_params _) hbytes hdec8
  exact hcomposed _ rfl List.map_map henc16

/-! ### T7ENC with an offset of at most 99 (R181 to R184) -/

theorem argCheck_ok {o : Nat} (ho : o ≤ 99) (w : Work) : argCheck o w = .ok (enter .arg w) := by
  rw [argCheck, if_neg (Nat.not_lt.2 ho)]

/-- KSX and FORMAT cannot fail: their response is the text of the encryption (R172, R182). -/
theorem ksx_format_response (k : KeyTable) (o : Nat) (bs : List Byte) (w : Work) :
    responseOf (ksx k o bs w >>= fun w => format o (w.out.map laneByte) { w with ks := w.out.map laneByte }) =
      .ok (unitLanes (type7Text o (keystreamXor k o bs))) := by
  rw [ksx_eq, ok_bind, format_eq, responseOf_ok, map_laneByte_byteLane, unitLanes_eq]

/-- Settles O47: the ARG stage passes, each stage's response does not depend on the working registers it starts from,
and after ENC8 no stage can fail (`ksx_format_response`). -/
theorem t7encIsItsStagesComposed : Obligations.T7encIsItsStagesComposed := by
  intro s s₁ s₂ o r₁ r₂ ho hinput hdec16
  have hunits : s₁.units = s.units := by rw [State.units, State.units, hinput]
  have hdec16' (v : Work) : responseOf (dec16 s.units v) = r₁ := by
    rw [← hunits, dec16_response _ v s₁.work]
    exact exec_eq_next_answered.1 hdec16
  simp only [exec_eq_next_answered, bodyOf, t7enc, argCheck_ok ho, ok_bind]
  refine ⟨fun e he => responseOf_bind_err ((hdec16' _).trans he), fun cps hcps hinput₂ henc8 => ?_⟩
  have henc8' (v : Work) : responseOf (enc8 cps v) = r₂ := by
    rw [← henc8, enc8_response cps v s₂.work, State.codePoints, hinput₂]
  refine ⟨fun e he => ?error, fun bs hbs => ?text⟩
  all_goals
    refine responseOf_bind_ok ((hdec16' _).trans hcps) fun w hout => ?_
    rw [hout]
  case error => exact responseOf_bind_err ((henc8' _).trans he)
  case text =>
    refine responseOf_bind_ok ((henc8' _).trans hbs) fun w hout => ?_
    rw [hout, byteLanes_eq, map_laneByte_byteLane]
    exact ksx_format_response s.params.keyTable o bs _

/-- Settles O46: DEC16 completes on the units, and ENC8 on the code points it writes. -/
theorem t7encEncryptsUtf8Text : Obligations.T7encEncryptsUtf8Text := by
  intro s o cps ho hvalid hunits
  have hdec16 := dec16DecodesUnitsAndPairs s cps (fun c hc => hasUnits_of_valid (hvalid c hc)) hunits
  have henc8 := exec_enc8_eq_ok.2 ⟨cps, fun c hc => (hvalid c hc).1, s.withInput_input _, rfl⟩
  obtain ⟨-, hafterDec16⟩ := t7encIsItsStagesComposed s s _ o _ _ ho rfl hdec16
  obtain ⟨-, hafterEnc8⟩ := hafterDec16 _ rfl (s.withInput_input _) henc8
  exact hafterEnc8 _ rfl

/-- Settles O48: the ARG stage comes first (`t7enc_error`), and the value field holds the offset. -/
theorem t7encRejectsOffsetAbove99 : Obligations.T7encRejectsOffsetAbove99 := by
  intro s o hlarge ho
  have hvalue : natValue ErrCode.e7OffsetRange.code o = BitVec.ofNat 32 o := if_pos (by omega)
  rw [← hvalue]
  exact exec_eq_answered_err.2 (t7enc_error hlarge)

/-- T7ENC answers an output exactly for an offset of at most 99 and the units of valid code points, and writes the text
of the encryption of their UTF-8 (R184, R186). -/
theorem exec_t7enc_eq_ok {s : State} {o : Nat} {out : List Lane} :
    exec (.t7enc o) s = .next (answered s (.ok out)) ↔
      o ≤ 99 ∧ ∃ cps : List Nat, (∀ c ∈ cps, Valid c) ∧ s.units = unitForms cps ∧
        out = unitLanes (type7Text o (keystreamXor s.params.keyTable o (utf8Forms cps))) := by
  constructor
  · intro h
    obtain ⟨w, hbody, -⟩ := exec_eq_answered_ok.1 h
    have ho : o ≤ 99 := by
      by_contra hlarge
      simp [bodyOf, t7enc_error (Nat.lt_of_not_le hlarge)] at hbody
    obtain ⟨cps, hvalid, hunits, -⟩ := unitForms_of_t7enc hbody
    have htext := t7encEncryptsUtf8Text s o cps ho hvalid hunits
    rw [h, Host.Outcome.next.injEq, answered_inj, Response.ok.injEq] at htext
    exact ⟨ho, cps, hvalid, hunits, htext⟩
  · rintro ⟨ho, cps, hvalid, hunits, rfl⟩
    exact t7encEncryptsUtf8Text s o cps ho hvalid hunits

/-- Settles O49: of the code points with units, 0x10FFFF alone is not valid (`valid_iff_hasUnits_ne`). -/
theorem t7encSucceedsExactlyOnEncodableText : Obligations.T7encSucceedsExactlyOnEncodableText := by
  intro s o hs hd hfits
  simp only [step_of_decode_ok hs hd hfits, exec_t7enc_eq_ok]
  constructor
  · rintro ⟨_, ho, cps, hvalid, hunits, -⟩
    exact ⟨ho, cps, fun c hc => hasUnits_of_valid (hvalid c hc), hunits,
      fun hlimit => (valid_iff_hasUnits_ne.1 (hvalid _ hlimit)).2 rfl⟩
  · rintro ⟨ho, cps, hcps, hunits, hlimit⟩
    have hvalid : ∀ c ∈ cps, Valid c := fun c hc =>
      valid_iff_hasUnits_ne.2 ⟨hcps c hc, fun heq => hlimit (heq ▸ hc)⟩
    exact ⟨_, ho, cps, hvalid, hunits, rfl⟩

/-! ### The text T7ENC writes (R102, R174, R182) -/

/-- The lanes of a type-7 text begin with the two digits of its salt. -/
theorem unitLanes_type7Text (o : Nat) (bs : List Byte) :
    unitLanes (type7Text o bs) = unitLanes (saltDigits o) ++ unitLanes (bs.flatMap hexDigits) := by
  simp only [unitLanes, type7Text_eq, List.map_append]

theorem unitLanes_saltDigits {o : Nat} (ho : o ≤ 99) :
    unitLanes (saltDigits o) = [BitVec.ofNat 32 (0x30 + o / 10), BitVec.ofNat 32 (0x30 + o % 10)] := by
  have htens : (BitVec.ofNat 16 (0x30 + o / 10)).toNat = 0x30 + o / 10 := by
    rw [BitVec.toNat_ofNat]
    omega
  have hones : (BitVec.ofNat 16 (0x30 + o % 10)).toNat = 0x30 + o % 10 := by
    rw [BitVec.toNat_ofNat]
    omega
  simp only [unitLanes, saltDigits, List.map_cons, List.map_nil, htens, hones]

/-- Settles O50: T7ENC writes a type-7 text whose salt is its offset (`exec_t7enc_eq_ok`). -/
theorem t7encOutputIsType7Text : Obligations.T7encOutputIsType7Text := by
  intro s o out h
  obtain ⟨ho, cps, -, -, rfl⟩ := exec_t7enc_eq_ok.1 h
  constructor
  · rw [unitLanes_eq, map_laneUnit_unitLane]
    exact isType7Text_type7Text ho _
  · refine ⟨_, _, _, by rw [unitLanes_type7Text, unitLanes_saltDigits ho]; rfl, ?_⟩
    simp only [BitVec.toNat_ofNat]
    omega

/-- Settles O51: the keystreams are equal (`keystreamXor_add_len`), and the tens digits of the salts are not. -/
theorem saltActsModuloTableLength : Obligations.SaltActsModuloTableLength := by
  intro s o a b hle ha hb
  obtain ⟨ho, cps, hvalid, hunits, rfl⟩ := exec_t7enc_eq_ok.1 ha
  have hb' := t7encEncryptsUtf8Text s (o + 54) cps hle hvalid hunits
  rw [hb, Host.Outcome.next.injEq, answered_inj, Response.ok.injEq, keystreamXor_add_len] at hb'
  rw [hb', unitLanes_type7Text, unitLanes_type7Text, unitLanes_saltDigits ho, unitLanes_saltDigits hle]
  refine ⟨rfl, fun heq => ?_⟩
  have htens : BitVec.ofNat 32 (0x30 + o / 10) = BitVec.ofNat 32 (0x30 + (o + 54) / 10) := (List.cons.inj heq).1
  have hnat := congrArg BitVec.toNat htens
  rw [BitVec.toNat_ofNat, BitVec.toNat_ofNat] at hnat
  omega

/-! ### The round trip (R185) -/

/-- Settles O52: the hash is the encryption of shortest forms, accepted under every setting (`shortest_accepted`), and
T7DEC decodes these to the units T7ENC read. -/
theorem cipherRoundTrip : Obligations.CipherRoundTrip := by
  intro s s' o text h hkey hinput
  obtain ⟨ho, cps, hvalid, hunits, rfl⟩ := exec_t7enc_eq_ok.1 h
  have hqs : ∀ q ∈ cps.map shortestSeq, q.Accepted s'.params.fourByteMin ∧ Valid q.value :=
    List.forall_mem_map.2 fun c hc => ⟨shortest_accepted (hvalid c hc).1 _, hvalid c hc⟩
  have hvalues : (cps.map shortestSeq).map Utf8Seq.value = cps := by
    rw [List.map_map]
    exact List.map_id cps
  have htext : s'.units = type7Text o (keystreamXor s'.params.keyTable o (seqBytes (cps.map shortestSeq))) := by
    rw [units_eq_of_input_eq hinput, hkey, seqBytes_shortestSeq]
  rw [t7decDecodesEncryptedText s' o _ ho hqs htext, hvalues, hunits]

end Sys2Proof.Machine

/-! SUPPORT. The proofs of 60_exceptions.md: what a loop has done when an element fails (R213, R215, R218), the records
each body raises (R210), the lanes it writes, and the numbers of the codes and stages. -/

namespace Sys2Proof.Machine

open Sys2Proof.Safety

/-! ### Element steps (R213, R215, R218) -/

section ElementSteps

variable {α : Type} {f : Work → α → Result} {as bs : List α} {w v : Work} {e : ErrRecord} {P : ErrRecord → Prop}

/-- The rules of an element step: one that passes moves the index on by one and stays in its stage, one that fails
names the index it stands at. -/
structure ElementStep (f : Work → α → Result) : Prop where
  index : ∀ w w' a, f w a = .ok w' → w'.i = w.i + 1
  stage : ∀ w w' a, f w a = .ok w' → w'.stage = w.stage
  error_index : ∀ w a e, f w a = .error e → e.index = w.i

/-- Where a loop that starts from `w` can stand: in the same stage, and before its first element only in `w` itself. -/
structure ReachedFrom (w v : Work) : Prop where
  stage : v.stage = w.stage
  start : v = w ∨ 1 ≤ v.i

theorem ReachedFrom.one_le (h : ReachedFrom w v) (hne : v ≠ w) : 1 ≤ v.i := h.start.resolve_left hne

theorem reachedFrom_of_scan (hf : ElementStep f) (h : scan f as w = .ok v) : ReachedFrom w v := by
  refine scan_keeps (P := ReachedFrom w) (fun a _ u u' hu ha => ?_) ⟨rfl, .inl rfl⟩ h
  have hindex := hf.index u u' a ha
  exact ⟨(hf.stage u u' a ha).trans hu.stage, .inr (by omega)⟩

/-- A loop raises what an element can raise where the loop can stand. -/
theorem raisesOnly_scan_of_reached (hf : ElementStep f) (hP : ∀ v a, ReachedFrom w v → RaisesOnly P (f v a))
    (as : List α) : RaisesOnly P (scan f as w) := by
  intro e h
  obtain ⟨_, bad, _, v, -, hgood, hbad⟩ := scan_error_iff.1 h
  exact hP v bad (reachedFrom_of_scan hf hgood) e hbad

/-- The index of an error of a loop is the number of the elements before the one that raised it. -/
theorem exists_failing_element (hf : ElementStep f) (hw : w.i = 0) (h : scan f as w = .error e) :
    ∃ good bad rest v, as = good ++ bad :: rest ∧ scan f good w = .ok v ∧ f v bad = .error e ∧
      e.index = good.length := by
  obtain ⟨good, bad, rest, v, has, hgood, hbad⟩ := scan_error_iff.1 h
  have hindex : v.i = w.i + good.length := scan_index hf.index hgood
  have herror := hf.error_index v bad e hbad
  exact ⟨good, bad, rest, v, has, hgood, hbad, by omega⟩

theorem index_lt_of_scan_error (hf : ElementStep f) (hw : w.i = 0) (h : scan f as w = .error e) :
    e.index < as.length := by
  obtain ⟨good, bad, rest, -, rfl, -, -, hindex⟩ := exists_failing_element hf hw h
  simp [hindex]

/-- R215: a loop over the same elements up to the one that fails ends with the same record. -/
theorem scan_error_of_take_eq (hf : ElementStep f) (hw : w.i = 0) (h : scan f as w = .error e)
    (htake : bs.take (e.index + 1) = as.take (e.index + 1)) : scan f bs w = .error e := by
  obtain ⟨good, bad, rest, v, rfl, hgood, hbad, hindex⟩ := exists_failing_element hf hw h
  have htaken : bs.take (good.length + 1) = good ++ [bad] := by
    rw [← hindex, htake, hindex, List.take_length_add_append]
    rfl
  have hbs : bs = good ++ bad :: bs.drop (good.length + 1) := by
    conv_lhs => rw [← List.take_append_drop (good.length + 1) bs, htaken]
    simp
  exact scan_error_iff.2 ⟨good, bad, _, v, hbs, hgood, hbad⟩

/-- An end check that names the index it stands at names the length of the loop before it (R123, R145). -/
theorem index_eq_length_of_end_error {g : Work → Result} (hf : ElementStep f)
    (hg : ∀ v e, g v = .error e → e.index = v.i) (hw : w.i = 0) (hscan : scan f as w = .ok v)
    (hend : g v = .error e) : e.index = as.length := by
  rw [hg v e hend, scan_index hf.index hscan, hw, Nat.zero_add]

/-- R215 for a loop with an end check: an error before the end is the loop's own. -/
theorem scan_bind_error_of_take_eq {g : Work → Result} (hf : ElementStep f)
    (hg : ∀ v e, g v = .error e → e.index = v.i) (hw : w.i = 0) (h : (scan f as w >>= g) = .error e)
    (hlt : e.index < as.length) (htake : bs.take (e.index + 1) = as.take (e.index + 1)) :
    (scan f bs w >>= g) = .error e := by
  obtain hscan | ⟨v, hscan, hend⟩ := bind_eq_error.1 h
  · exact bind_eq_error.2 (.inl (scan_error_of_take_eq hf hw hscan htake))
  · exact absurd (index_eq_length_of_end_error hf hg hw hscan hend) hlt.ne

/-- A loop with an end check raises no index above its length. -/
theorem index_le_of_scan_bind_error {g : Work → Result} (hf : ElementStep f)
    (hg : ∀ v e, g v = .error e → e.index = v.i) (hw : w.i = 0) (h : (scan f as w >>= g) = .error e) :
    e.index ≤ as.length := by
  obtain hscan | ⟨v, hscan, hend⟩ := bind_eq_error.1 h
  · exact (index_lt_of_scan_error hf hw hscan).le
  · exact (index_eq_length_of_end_error hf hg hw hscan hend).le

/-- What a sequence of two stages raises, when the second needs to be known only for what the first leaves. -/
theorem raisesOnly_bind_of_ok {r : Result} {g : Work → Result} (hr : RaisesOnly P r)
    (hg : ∀ v, r = .ok v → RaisesOnly P (g v)) : RaisesOnly P (r >>= g) := by
  intro e h
  obtain h | ⟨v, hv, h⟩ := bind_eq_error.1 h
  · exact hr e h
  · exact hg v hv e h

end ElementSteps

/-! ### What each element can raise -/

section Elements

variable {w : Work} {e : ErrRecord}

/-- All one unit of DEC16 can raise (R120 to R122). -/
theorem dec16Elem_error_iff {u : CodeUnit} :
    dec16Elem w u = .error e ↔
      (IsLead u ∧ w.pend ≠ none ∧ e = ⟨.e16LeadAfterLead, w.stage, w.i, unitLane u⟩) ∨
      (IsTrail u ∧ w.pend = none ∧ e = ⟨.e16TrailWithoutLead, w.stage, w.i, unitLane u⟩) ∨
      (¬ IsSurrogate u.toNat ∧ w.pend ≠ none ∧ e = ⟨.e16NontrailAfterLead, w.stage, w.i, unitLane u⟩) := by
  rw [← unitClass_eq_lead, ← unitClass_eq_trail, ← unitClass_eq_nonSurrogate]
  cases hu : unitClass u <;> cases hp : w.pend <;> simp [dec16Elem, hu, hp, eq_comm]

theorem dec16End_error_iff :
    dec16End w = .error e ↔
      ∃ p, w.pend = some p ∧ e = ⟨.e16DanglingLead, w.stage, w.i, unitLane (leadOfPending p)⟩ := by
  cases hp : w.pend <;> simp [dec16End, hp, eq_comm]

theorem dec8Complete_error_iff {m : FourByteMin} {v : BitVec 21} :
    dec8Complete m w v = .error e ↔
      shortestOk m v w.tot = false ∧ e = ⟨.e8Overlong, w.stage, w.i, v.setWidth 32⟩ := by
  cases hok : shortestOk m v w.tot with
  | false => simp [dec8Complete_error hok, eq_comm]
  | true => simp [dec8Complete_ok hok]

/-- All one byte of DEC8 can raise (R140 to R145). -/
theorem dec8Elem_error_cases {m : FourByteMin} {b : Byte} (h : dec8Elem m w b = .error e) :
    (byteClass b = .single ∧ w.acc ≠ none ∧ e = ⟨.e8LowMidSeq, w.stage, w.i, byteLane b⟩) ∨
    (byteClass b = .continuation ∧ w.acc = none ∧ e = ⟨.e8ContWithoutLead, w.stage, w.i, byteLane b⟩) ∨
    (∃ p r t, byteClass b = .lead p r t ∧ w.acc ≠ none ∧ e = ⟨.e8NewBeforeEnd, w.stage, w.i, byteLane b⟩) ∨
    (byteClass b = .invalid ∧ e = ⟨.e8InvalidLead, w.stage, w.i, byteLane b⟩) ∨
    ∃ v : BitVec 21, w.acc ≠ none ∧ shortestOk m v w.tot = false ∧
      e = ⟨.e8Overlong, w.stage, w.i, v.setWidth 32⟩ := by
  cases hb : byteClass b <;> cases ha : w.acc <;>
    simp only [dec8Elem, hb, ha, raiseHere_eq, reduceCtorEq, Except.error.injEq] at h
  case single.some a => exact .inl ⟨rfl, by simp, h.symm⟩
  case continuation.none => exact .inr (.inl ⟨rfl, rfl, h.symm⟩)
  case lead.some p r t a => exact .inr (.inr (.inl ⟨p, r, t, rfl, by simp, h.symm⟩))
  case invalid.none | invalid.some => exact .inr (.inr (.inr (.inl ⟨rfl, h.symm⟩)))
  case continuation.some a =>
    split at h
    case isTrue =>
      obtain ⟨hlow, he⟩ := dec8Complete_error_iff.1 h
      exact .inr (.inr (.inr (.inr ⟨foldByte a b, by simp, hlow, he⟩)))
    case isFalse => simp at h

theorem dec8End_error_iff :
    dec8End w = .error e ↔ w.rem ≠ 0 ∧ e = ⟨.e8Truncated, w.stage, w.i, w.rem.setWidth 32⟩ := by
  by_cases hr : w.rem = 0
  · simp [dec8End_eq_ok.2 ⟨hr, rfl⟩, hr]
  · simpa [dec8End_inSequence hr, eq_comm (a := e)] using fun _ => hr

/-- All one unit of VALIDATE can raise (R176). -/
theorem validateElem_error_iff {u : CodeUnit} :
    validateElem w u = .error e ↔
      (w.i < 2 ∧ ¬ IsDigit u ∧ e = ⟨.e7SaltDigit, w.stage, w.i, unitLane u⟩) ∨
      (2 ≤ w.i ∧ ¬ IsHex u ∧ e = ⟨.e7HashDigit, w.stage, w.i, unitLane u⟩) := by
  rw [← isDigit_iff, ← isHex_iff, ← Nat.not_lt]
  by_cases hi : w.i < 2
  · cases hd : isDigit u <;> simp [validateElem, hi, hd, eq_comm (a := e)]
  · cases hx : isHex u <;> simp [validateElem, hi, hx, eq_comm (a := e)]

/-- One code point of ENC16 that passes is valid and writes its unit or pair (R126). -/
theorem eq_emit_of_enc16Elem {w' : Work} {cp : CodePoint} (h : enc16Elem w cp = .ok w') :
    w' = advance (emit ((unitForm cp.toNat).map unitLane) w) := by
  have hok := enc16Elem_valid (valid_of_enc16Elem h) w
  rw [cpLane_toNat_self, h, Except.ok.injEq] at hok
  exact hok

theorem dec16Elem_elementStep : ElementStep dec16Elem where
  index _ _ _ h := by obtain ⟨-, -, rfl⟩ | ⟨_, -, -, rfl⟩ | ⟨-, -, rfl⟩ := dec16Elem_ok_iff.1 h <;> rfl
  stage _ _ _ h := by obtain ⟨-, -, rfl⟩ | ⟨_, -, -, rfl⟩ | ⟨-, -, rfl⟩ := dec16Elem_ok_iff.1 h <;> rfl
  error_index _ _ _ h := by
    obtain ⟨-, -, rfl⟩ | ⟨-, -, rfl⟩ | ⟨-, -, rfl⟩ := dec16Elem_error_iff.1 h <;> rfl

theorem enc16Elem_elementStep : ElementStep enc16Elem where
  index _ _ _ h := congrArg Work.i (eq_emit_of_enc16Elem h)
  stage _ _ _ h := (congrArg Work.stage (eq_emit_of_enc16Elem h)).trans rfl
  error_index _ _ _ h := by obtain ⟨-, rfl⟩ | ⟨-, rfl⟩ := enc16Elem_error_iff.1 h <;> rfl

theorem dec8Elem_stage {m : FourByteMin} {w' : Work} {b : Byte} (h : dec8Elem m w b = .ok w') :
    w'.stage = w.stage := by
  obtain ⟨-, -, rfl⟩ | ⟨_, _, _, -, -, rfl⟩ | ⟨_, -, -, -, rfl⟩ | ⟨_, -, -, -, hc⟩ := dec8Elem_ok_cases h
  · rfl
  · rfl
  · rfl
  · obtain ⟨-, rfl⟩ := dec8Complete_eq_ok.1 hc
    rfl

theorem dec8Elem_elementStep (m : FourByteMin) : ElementStep (dec8Elem m) where
  index _ _ _ := dec8Elem_index
  stage _ _ _ := dec8Elem_stage
  error_index _ _ _ h := by
    obtain ⟨-, -, rfl⟩ | ⟨-, -, rfl⟩ | ⟨_, _, _, -, -, rfl⟩ | ⟨-, rfl⟩ | ⟨_, -, -, rfl⟩ := dec8Elem_error_cases h <;>
      rfl

theorem enc8Elem_elementStep : ElementStep enc8Elem where
  index _ _ _ h := congrArg Work.i (inRange_of_enc8Elem h).2
  stage _ _ _ h := (congrArg Work.stage (inRange_of_enc8Elem h).2).trans rfl
  error_index _ _ _ h := by
    obtain ⟨-, rfl⟩ := enc8Elem_error_iff.1 h
    rfl

theorem validateElem_elementStep : ElementStep validateElem where
  index _ _ _ h := congrArg Work.i (validateElem_eq_ok.1 h).2
  stage _ _ _ h := (congrArg Work.stage (validateElem_eq_ok.1 h).2).trans rfl
  error_index _ _ _ h := by obtain ⟨-, -, rfl⟩ | ⟨-, -, rfl⟩ := validateElem_error_iff.1 h <;> rfl

theorem dec16End_index (v : Work) (e : ErrRecord) (h : dec16End v = .error e) : e.index = v.i := by
  obtain ⟨_, -, rfl⟩ := dec16End_error_iff.1 h
  rfl

theorem dec8End_index (v : Work) (e : ErrRecord) (h : dec8End v = .error e) : e.index = v.i := by
  obtain ⟨-, rfl⟩ := dec8End_error_iff.1 h
  rfl

end Elements

/-! ### The records each body raises (R210) -/

theorem unitLane_toNat (u : CodeUnit) : (unitLane u).toNat = u.toNat := by
  have hlt := u.isLt
  simp only [unitLane, BitVec.toNat_setWidth]
  omega

theorem byteLane_toNat (b : Byte) : (byteLane b).toNat = b.toNat := by
  have hlt := b.isLt
  simp only [byteLane, BitVec.toNat_setWidth]
  omega

theorem unitLane_toNat_le (u : CodeUnit) : (unitLane u).toNat ≤ 0xFFFF := by
  have hlt := u.isLt
  rw [unitLane_toNat]
  omega

theorem setWidth_unitLane (u : CodeUnit) : (unitLane u).setWidth 16 = u := laneUnit_unitLane u

/-- Whatever is pending, the value of R123 is a lead. -/
theorem isLead_leadOfPending (p : BitVec 20) : IsLead (leadOfPending p) := by
  have hlt := p.isLt
  simp only [IsLead, leadOfPending, BitVec.toNat_add, BitVec.toNat_setWidth, BitVec.toNat_ushiftRight,
    BitVec.toNat_ofNat, Nat.shiftRight_eq_div_pow]
  omega

/-- A value that is refused as overlong has at most 16 bits, whatever the length of its sequence (R143). -/
theorem toNat_le_of_shortestOk_false {m : FourByteMin} {v : BitVec 21} {t : BitVec 3} (h : shortestOk m v t = false) :
    v.toNat ≤ 0xFFFF := by
  have hbound : fourByteBound m ≤ 0x10000 := by cases m <;> decide
  by_contra hlarge
  have hok : shortestOk m v t = true := by
    simp only [shortestOk, Bool.and_eq_true, Bool.or_eq_true, decide_eq_true_eq]
    omega
  simp [hok] at h

theorem dec16_raises_legal (us : List CodeUnit) (w : Work) : RaisesOnly LegalError (dec16 us w) := by
  refine raisesOnly_bind_of_ok (raisesOnly_scan_of_reached dec16Elem_elementStep (fun v u hv e h => ?element) us)
    fun v hscan e h => ?danglingLead
  case element =>
    have hstage : v.stage = .dec16 := hv.stage
    have hindex (hp : v.pend ≠ none) : 1 ≤ v.i := hv.one_le fun heq => hp (heq ▸ rfl)
    have hle := unitLane_toNat_le u
    obtain ⟨⟨hlo, hhi⟩, hp, rfl⟩ | ⟨⟨hlo, hhi⟩, -, rfl⟩ | ⟨hns, hp, rfl⟩ := dec16Elem_error_iff.1 h
    · simp [LegalError, hstage, hindex hp, unitLane_toNat, hlo, hhi]
    · simp [LegalError, hstage, unitLane_toNat, hlo, hhi]
    · rw [← unitLane_toNat] at hns
      exact ⟨hstage, hindex hp, hle, hns⟩
  case danglingLead =>
    have hv := reachedFrom_of_scan dec16Elem_elementStep hscan
    obtain ⟨p, hp, rfl⟩ := dec16End_error_iff.1 h
    have hindex : 1 ≤ v.i := hv.one_le fun heq => by simp [heq] at hp
    obtain ⟨hlo, hhi⟩ := isLead_leadOfPending p
    simp [LegalError, hv.stage, hindex, unitLane_toNat, hlo, hhi]

theorem enc16_raises_legal (cps : List CodePoint) (w : Work) : RaisesOnly LegalError (enc16 cps w) := by
  refine raisesOnly_scan_of_reached enc16Elem_elementStep (fun v cp hv e h => ?_) cps
  have hstage : v.stage = .enc16 := hv.stage
  obtain ⟨hrange, rfl⟩ | ⟨hsurrogate, rfl⟩ := enc16Elem_error_iff.1 h
  · exact ⟨.inl hstage, hrange⟩
  · have hnat : IsSurrogate cp.toNat := by
      have hlt := cp.isLt
      rw [BitVec.toInt_eq_toNat_cond] at hsurrogate
      unfold IsSurrogate
      split at hsurrogate <;> omega
    exact ⟨hstage, hnat⟩

theorem dec8_raises_legal (m : FourByteMin) (bs : List Byte) (w : Work) : RaisesOnly LegalError (dec8 m bs w) := by
  refine raisesOnly_bind_of_ok (raisesOnly_scan_of_reached (dec8Elem_elementStep m) (fun v b hv e h => ?element) bs)
    fun v hscan e h => ?truncated
  case element =>
    have hstage : v.stage = .dec8 := hv.stage
    have hindex (ha : v.acc ≠ none) : 1 ≤ v.i := hv.one_le fun heq => ha (heq ▸ rfl)
    have hlt := b.isLt
    obtain ⟨hb, ha, rfl⟩ | ⟨hb, -, rfl⟩ | ⟨p, r, t, hb, ha, rfl⟩ | ⟨hb, rfl⟩ | ⟨x, ha, hlow, rfl⟩ :=
      dec8Elem_error_cases h
    · have hrange := byteClass_eq_single.1 hb
      simp only [LegalError, byteLane_toNat]
      exact ⟨hstage, hindex ha, by omega⟩
    · have hrange := byteClass_eq_continuation.1 hb
      simp only [LegalError, byteLane_toNat]
      exact ⟨hstage, by omega⟩
    · have hrange := range_of_byteClass_lead hb
      simp only [LegalError, byteLane_toNat]
      exact ⟨hstage, hindex ha, by omega⟩
    · have hrange := byteClass_eq_invalid.1 hb
      simp only [LegalError, byteLane_toNat]
      exact ⟨hstage, by omega⟩
    · have hvalue := toNat_le_of_shortestOk_false hlow
      simp only [LegalError, BitVec.toNat_setWidth]
      exact ⟨hstage, hindex ha, by omega⟩
  case truncated =>
    have hv := reachedFrom_of_scan (dec8Elem_elementStep m) hscan
    obtain ⟨hrem, rfl⟩ := dec8End_error_iff.1 h
    have hindex : 1 ≤ v.i := hv.one_le fun heq => hrem (heq ▸ rfl)
    have hpos : v.rem.toNat ≠ 0 := fun hzero => hrem (BitVec.eq_of_toNat_eq hzero)
    have hlt := v.rem.isLt
    simp only [LegalError, BitVec.toNat_setWidth]
    exact ⟨hv.stage, hindex, by omega⟩

theorem enc8_raises_legal (cps : List CodePoint) (w : Work) : RaisesOnly LegalError (enc8 cps w) := by
  refine raisesOnly_scan_of_reached enc8Elem_elementStep (fun v cp hv e h => ?_) cps
  obtain ⟨hrange, rfl⟩ := enc8Elem_error_iff.1 h
  exact ⟨.inr hv.stage, hrange⟩

theorem validate_raises_legal (t : List CodeUnit) (w : Work) : RaisesOnly LegalError (validate t w) := by
  intro e h
  by_cases hodd : t.length % 2 = 1
  · rw [validate_odd hodd, Except.error.injEq] at h
    rw [← h]
    exact ⟨rfl, hodd, natValue_toNat _⟩
  by_cases hnil : t = []
  · rw [hnil, validate_nil, Except.error.injEq] at h
    rw [← h]
    exact ⟨rfl, rfl, rfl⟩
  · have hpos := List.length_pos_iff.2 hnil
    rw [validate_even (by omega) (by omega)] at h
    refine raisesOnly_scan_of_reached validateElem_elementStep (fun v u hv e h => ?_) t e h
    have hle := unitLane_toNat_le u
    obtain ⟨hi, hdigit, rfl⟩ | ⟨hi, hhex, rfl⟩ := validateElem_error_iff.1 h
    · rw [← setWidth_unitLane u] at hdigit
      exact ⟨hv.stage, hi, hle, hdigit⟩
    · rw [← setWidth_unitLane u] at hhex
      exact ⟨hv.stage, hi, hle, hhex⟩

/-- The offset of a descriptor is below 128, so the value of E7_OFFSET_RANGE is 100 to 127 (R92, R183). -/
theorem argCheck_raises_legal {o : Nat} (ho : o ≤ 127) (w : Work) : RaisesOnly LegalError (argCheck o w) := by
  by_cases hlarge : 99 < o
  · have hvalue := natValue_toNat ErrCode.e7OffsetRange.code (show o < 2 ^ 31 by omega)
    simp only [argCheck, if_pos hlarge, raise_eq, raisesOnly_error, LegalError, hvalue]
    exact ⟨rfl, trivial, hlarge, ho⟩
  · rw [argCheck_ok (by omega)]
    exact raisesOnly_ok _

theorem ksx_raisesOnly (P : ErrRecord → Prop) (k : KeyTable) (o : Nat) (bs : List Byte) (w : Work) :
    RaisesOnly P (ksx k o bs w) := by
  rw [ksx_eq]
  exact raisesOnly_ok _

theorem parse_raisesOnly (P : ErrRecord → Prop) (t : List CodeUnit) (w : Work) : RaisesOnly P (parse t w) := by
  rw [parse_eq]
  exact raisesOnly_ok _

theorem format_raisesOnly (P : ErrRecord → Prop) (o : Nat) (c : List Byte) (w : Work) :
    RaisesOnly P (format o c w) := by
  rw [format_eq]
  exact raisesOnly_ok _

/-- Every record an operation of a descriptor raises is one of the table, whichever stage raises it (R179, R210). -/
theorem bodyOf_raises_legal {i : Instr} (hi : WellFormed i = true) (s : State) : RaisesOnly LegalError (bodyOf i s) := by
  cases i with
  | dec16 => exact dec16_raises_legal _ _
  | enc16 => exact enc16_raises_legal _ _
  | dec8 => exact dec8_raises_legal _ _ _
  | enc8 => exact enc8_raises_legal _ _
  | ksx o => exact ksx_raisesOnly _ _ _ _ _
  | t7dec =>
    exact raisesOnly_bind (validate_raises_legal _ _) fun _ => raisesOnly_bind (parse_raisesOnly _ _ _) fun _ =>
      raisesOnly_bind (ksx_raisesOnly _ _ _ _ _) fun _ => raisesOnly_bind (dec8_raises_legal _ _ _) fun _ =>
        enc16_raises_legal _ _
  | t7enc o =>
    have ho : o ≤ 127 := of_decide_eq_true hi
    exact raisesOnly_bind (argCheck_raises_legal ho _) fun _ => raisesOnly_bind (dec16_raises_legal _ _) fun _ =>
      raisesOnly_bind (enc8_raises_legal _ _) fun _ => raisesOnly_bind (ksx_raisesOnly _ _ _ _ _) fun _ =>
        format_raisesOnly _ _ _ _

theorem legalError_illegalOp (c : Descriptor) : LegalError (illegalOp c) := by
  have hlt := c.isLt
  simp only [illegalOp, LegalError, BitVec.toNat_setWidth]
  exact ⟨trivial, trivial, by omega⟩

theorem legalError_capacityError {m n : Nat} (h : m < n) : LegalError (capacityError m n) :=
  ⟨rfl, Nat.one_le_of_lt h⟩

/-! ### The lanes each body writes (R35) -/

theorem legalResponse_cpLanes {cps : List Nat} (h : ∀ c ∈ cps, c ≤ 0x1FFFFF) :
    LegalResponse (.ok (cps.map cpLane)) := by
  refine List.forall_mem_map.2 fun c hc => ?_
  have hle := h c hc
  rw [cpLane_toNat (by omega)]
  exact hle

theorem legalResponse_unitLanes (us : List CodeUnit) : LegalResponse (.ok (unitLanes us)) := by
  rw [unitLanes_eq]
  refine List.forall_mem_map.2 fun u _ => ?_
  have hle := unitLane_toNat_le u
  omega

theorem legalResponse_byteLanes (bs : List Byte) : LegalResponse (.ok (byteLanes bs)) := by
  rw [byteLanes_eq]
  refine List.forall_mem_map.2 fun b _ => ?_
  have hlt := b.isLt
  rw [byteLane_toNat]
  omega

/-- ENC16 writes units, whatever code points it is given (R126). -/
theorem enc16_out {cps : List CodePoint} {w w' : Work} (h : enc16 cps w = .ok w') :
    w'.out = unitLanes (unitForms (cps.map BitVec.toNat)) := by
  have hvalid : ∀ c ∈ cps.map BitVec.toNat, Valid c := List.forall_mem_map.2 fun cp hcp =>
    have ⟨_, _, hok⟩ := exists_ok_of_scan_ok h cp hcp
    valid_of_enc16Elem hok
  rw [← map_cpLane_toNat cps, enc16_valid hvalid] at h
  rw [← Except.ok.inj h]

/-- Every output is of lanes of at most 21 bits: code points, units or bytes (R35). -/
theorem legalResponse_of_bodyOf_ok {i : Instr} {s : State} {w : Work} (h : bodyOf i s = .ok w) :
    LegalResponse (.ok w.out) := by
  have hexec : exec i s = .next (answered s (.ok w.out)) := exec_eq_answered_ok.2 ⟨w, h, rfl⟩
  cases i with
  | dec16 =>
    obtain ⟨cps, hcps, -, hout⟩ := exec_dec16_eq_ok.1 hexec
    rw [hout]
    exact legalResponse_cpLanes fun c hc => (hcps c hc).1.trans (by decide)
  | enc16 =>
    rw [enc16_out h]
    exact legalResponse_unitLanes _
  | dec8 =>
    obtain ⟨qs, hqs, -, hout⟩ := exec_dec8_eq_ok.1 hexec
    have hvalues : ∀ c ∈ qs.map Utf8Seq.value, c ≤ 0x1FFFFF := List.forall_mem_map.2 fun q hq => by
      obtain ⟨-, -, hvalue⟩ := fits_bounds (hqs q hq).1
      omega
    have hlegal := legalResponse_cpLanes hvalues
    rw [List.map_map] at hlegal
    exact hout ▸ hlegal
  | enc8 =>
    obtain ⟨cps, -, -, hout⟩ := exec_enc8_eq_ok.1 hexec
    exact hout ▸ legalResponse_byteLanes _
  | t7dec =>
    obtain ⟨_, -, hafterValidate⟩ := bind_eq_ok.1 h
    obtain ⟨_, -, hafterParse⟩ := bind_eq_ok.1 hafterValidate
    obtain ⟨_, -, hafterKsx⟩ := bind_eq_ok.1 hafterParse
    obtain ⟨_, -, henc16⟩ := bind_eq_ok.1 hafterKsx
    rw [enc16_out henc16]
    exact legalResponse_unitLanes _
  | t7enc o =>
    obtain ⟨-, _, -, -, hout⟩ := exec_t7enc_eq_ok.1 hexec
    exact hout ▸ legalResponse_unitLanes _
  | ksx o =>
    rw [ksx_out h, ← byteLanes_eq]
    exact legalResponse_byteLanes _

/-! ### What a step can answer -/

/-- A request in progress is answered with a record of one of the port's checks, or with the response of a well-formed
operation (R93). -/
theorem response_cases_of_step {s : State} {r : Response} (hs : s.activity = .inProgress)
    (h : step s = .next (answered s r)) :
    r = .err (illegalOp s.cmd) ∨ (∃ m, m < s.n ∧ r = .err (capacityError m s.n)) ∨
      ∃ i, WellFormed i = true ∧ responseOf (bodyOf i s) = r := by
  cases hp : portAction s with
  | wait => simp [portAction_eq_wait.1 hp] at hs
  | reject e =>
    rw [step_of_reject hp, Host.Outcome.next.injEq, answered_inj] at h
    obtain ⟨-, ⟨_, -, rfl⟩ | ⟨_, m, -, -, hlong, rfl⟩⟩ := portAction_eq_reject.1 hp
    · exact .inl h.symm
    · exact .inr (.inl ⟨m, hlong, h.symm⟩)
  | perform i =>
    obtain ⟨-, hd, -⟩ := portAction_eq_perform.1 hp
    obtain ⟨hi, -⟩ := decode_eq_ok_iff.1 hd
    rw [step_of_perform hp, exec_eq_next_answered] at h
    exact .inr (.inr ⟨i, hi, h⟩)

theorem legalResponse_of_step {s : State} {r : Response} (hs : s.activity = .inProgress)
    (h : step s = .next (answered s r)) : LegalResponse r := by
  obtain rfl | ⟨m, hlong, rfl⟩ | ⟨i, hi, rfl⟩ := response_cases_of_step hs h
  · exact legalError_illegalOp s.cmd
  · exact legalError_capacityError hlong
  · cases hbody : bodyOf i s with
    | ok w => exact legalResponse_of_bodyOf_ok hbody
    | error e => exact bodyOf_raises_legal hi s e hbody

/-! ### The index of a record (R213, R218) -/

/-- The index of the record is at most `n`. -/
def IndexWithin (n : Nat) (e : ErrRecord) : Prop := e.index ≤ n

section Indexes

variable {n : Nat}

theorem dec16_index {us : List CodeUnit} (h : us.length ≤ n) (w : Work) : RaisesOnly (IndexWithin n) (dec16 us w) :=
  fun _ he => (index_le_of_scan_bind_error dec16Elem_elementStep dec16End_index rfl he).trans h

theorem enc16_index {cps : List CodePoint} (h : cps.length ≤ n) (w : Work) :
    RaisesOnly (IndexWithin n) (enc16 cps w) :=
  fun _ he => (index_lt_of_scan_error enc16Elem_elementStep rfl he).le.trans h

theorem dec8_index {m : FourByteMin} {bs : List Byte} (h : bs.length ≤ n) (w : Work) :
    RaisesOnly (IndexWithin n) (dec8 m bs w) :=
  fun _ he => (index_le_of_scan_bind_error (dec8Elem_elementStep m) dec8End_index rfl he).trans h

theorem enc8_index {cps : List CodePoint} (h : cps.length ≤ n) (w : Work) :
    RaisesOnly (IndexWithin n) (enc8 cps w) :=
  fun _ he => (index_lt_of_scan_error enc8Elem_elementStep rfl he).le.trans h

theorem validate_index (t : List CodeUnit) (w : Work) : RaisesOnly (IndexWithin t.length) (validate t w) := by
  unfold validate
  dsimp only
  split
  · simp [IndexWithin]
  · split
    · simp [IndexWithin]
    · exact fun _ he => (index_lt_of_scan_error validateElem_elementStep rfl he).le

theorem argCheck_index (o : Nat) (w : Work) : RaisesOnly (IndexWithin n) (argCheck o w) := by
  unfold argCheck
  dsimp only
  split <;> simp [IndexWithin]

/-- T7DEC hands DEC8 half as many bytes as it has hash digits, and DEC8 hands ENC16 no more code points than that. -/
theorem t7dec_index (p : Params) (t : List CodeUnit) (w : Work) :
    RaisesOnly (IndexWithin t.length) (t7dec p t w) := by
  refine raisesOnly_bind (validate_index t _) fun v => ?_
  simp only [parse_eq, ksx_eq, ok_bind, map_laneByte_byteLane]
  have hbytes : (keystreamXor p.keyTable (saltValue (t.getD 0 0) (t.getD 1 0)).toNat
      ((hexPairs (t.drop 2)).map fun q => hashByte q.1 q.2)).length ≤ t.length := by
    simp only [keystreamXor_length, List.length_map, hexPairs_length, List.length_drop]
    omega
  exact raisesOnly_bind_of_ok (dec8_index hbytes _) fun d hd => enc16_index ((dec8_out_length_le hd).trans hbytes) _

/-- DEC16 hands ENC8 no more code points than it has units, and the stages after ENC8 cannot fail. -/
theorem t7enc_index (k : KeyTable) (o : Nat) (p : List CodeUnit) (w : Work) :
    RaisesOnly (IndexWithin p.length) (t7enc k o p w) :=
  raisesOnly_bind (argCheck_index o _) fun _ => raisesOnly_bind_of_ok (dec16_index le_rfl _) fun _ hd =>
    raisesOnly_bind (enc8_index (dec16_out_length_le hd) _) fun _ => raisesOnly_bind (ksx_raisesOnly _ _ _ _ _) fun _ =>
      format_raisesOnly _ _ _ _

theorem bodyOf_index (i : Instr) (s : State) : RaisesOnly (IndexWithin s.n) (bodyOf i s) := by
  have hunits : s.units.length = s.n := units_length s
  cases i with
  | dec16 => exact dec16_index hunits.le _
  | enc16 => exact enc16_index (codePoints_length s).le _
  | dec8 => exact dec8_index (bytes_length s).le _
  | enc8 => exact enc8_index (codePoints_length s).le _
  | t7dec => exact hunits ▸ t7dec_index s.params s.units s.work
  | t7enc o => exact hunits ▸ t7enc_index s.params.keyTable o s.units s.work
  | ksx o => exact ksx_raisesOnly _ _ _ _ _

end Indexes

/-! ### The numbers of the codes and stages (R210, R214) -/

/-- The conditions of R210, in its order. -/
def ErrCode.all : List ErrCode :=
  [.e16LeadAfterLead, .e16TrailWithoutLead, .e16NontrailAfterLead, .e16DanglingLead, .ecpRange, .ecpSurrogate,
    .e8LowMidSeq, .e8ContWithoutLead, .e8NewBeforeEnd, .e8InvalidLead, .e8Truncated, .e8Overlong, .e7Parity,
    .e7TooShort, .e7SaltDigit, .e7HashDigit, .e7Hex, .e7OffsetRange, .eCapacity, .eIllegalOp]

/-- The stages of R214, in its order. -/
def Stage.all : List Stage :=
  [.none, .arg, .validate, .parse, .dec16, .enc8, .ksx, .format, .dec8, .enc16]

theorem ErrCode.mem_all (a : ErrCode) : a ∈ ErrCode.all := by cases a <;> decide

theorem Stage.mem_all (a : Stage) : a ∈ Stage.all := by cases a <;> decide

theorem ErrCode.nodup_codes : (ErrCode.all.map ErrCode.code).Nodup := by decide

theorem Stage.nodup_tags : (Stage.all.map Stage.tag).Nodup := by decide

/-! ### The statements -/

/-- Settles O53: the numbers in the tables of R210 and R214 have no duplicate, and none is an unassigned one. -/
theorem codesAndStagesAreDistinct : Obligations.CodesAndStagesAreDistinct := by
  refine ⟨fun a b h => ?codes, fun a b h => ?stages, fun a => ?unassigned, fun a => ?range⟩
  case codes => exact List.inj_on_of_nodup_map ErrCode.nodup_codes a.mem_all b.mem_all h
  case stages => exact List.inj_on_of_nodup_map Stage.nodup_tags a.mem_all b.mem_all h
  case unassigned => cases a <;> decide
  case range => cases a <;> decide

/-- Settles O21: the port's two records have index 0 and `n`, and an operation's is within the input of the stage that
raised it, no longer than its own input (`bodyOf_index`). -/
theorem errorIndexIsWithinInput : Obligations.ErrorIndexIsWithinInput := by
  intro s e hs h
  obtain he | ⟨m, -, he⟩ | ⟨i, -, he⟩ := response_cases_of_step hs h
  · rw [Response.err.inj he]
    exact Nat.zero_le _
  · rw [Response.err.inj he]
    exact le_rfl
  · exact bodyOf_index i s e (responseOf_eq_err.1 he)

/-- Settles O23. The loop of a codec stops at the element that fails (`scan_error_of_take_eq`), and its response does
not depend on the working registers it starts from. -/
theorem codecErrorsReadNoLaterElement : Obligations.CodecErrorsReadNoLaterElement := by
  intro s s' i e hi h hlt hparams htake
  have hunits : s'.units.take (e.index + 1) = s.units.take (e.index + 1) := by
    rw [State.units, State.units, ← List.map_take, htake, List.map_take]
  have hbytes : s'.bytes.take (e.index + 1) = s.bytes.take (e.index + 1) := by
    rw [State.bytes, State.bytes, ← List.map_take, htake, List.map_take]
  have hltUnits : e.index < s.units.length := (units_length s).symm ▸ hlt
  have hltBytes : e.index < s.bytes.length := (bytes_length s).symm ▸ hlt
  rw [exec_eq_answered_err] at h
  rw [exec_eq_next_answered]
  obtain rfl | rfl | rfl | rfl := hi
  · exact (dec16_response _ _ s.work).trans (responseOf_eq_err.2
      (scan_bind_error_of_take_eq dec16Elem_elementStep dec16End_index rfl h hltUnits hunits))
  · exact (enc16_response _ _ s.work).trans (responseOf_eq_err.2
      (scan_error_of_take_eq enc16Elem_elementStep rfl h htake))
  · rw [bodyOf, hparams]
    exact (dec8_response _ _ _ s.work).trans (responseOf_eq_err.2
      (scan_bind_error_of_take_eq (dec8Elem_elementStep _) dec8End_index rfl h hltBytes hbytes))
  · exact (enc8_response _ _ s.work).trans (responseOf_eq_err.2
      (scan_error_of_take_eq enc8Elem_elementStep rfl h htake))

/-- Settles O15. A step changes nothing, or answers the request with a legal response (`legalResponse_of_step`) and
discards the working registers. -/
theorem everyStepKeepsTheInvariant : Obligations.EveryStepKeepsTheInvariant := by
  intro s t hinv h
  obtain ⟨-, rfl⟩ | ⟨hs, r, rfl⟩ := eq_or_answered_of_step h
  · exact hinv
  · exact ⟨legalResponse_of_step hs h, rfl⟩

end Sys2Proof.Machine

/-! SUPPORT. The proofs of 70_reset_and_hazards.md: the waiting block, what the host's acts do in an idle and in a busy
block, the block after a reset, and the element steps of each stage and operation. -/

namespace Sys2Proof.Machine

open Sys2Proof.Safety

/-! ### The host's acts (R243, R250, R251) -/

theorem hostPresent_of_idle {s : State} (h : s.activity = .idle) (c : Descriptor) (a : List Lane) :
    hostPresent c a s = .next { s with cmd := c, input := a, activity := .inProgress } :=
  hostPresent_eq_next.2 ⟨h, rfl⟩

theorem hostPresent_of_inProgress {s : State} (h : s.activity = .inProgress) (c : Descriptor) (a : List Lane) :
    hostPresent c a s = .fault .requestWhileBusy := by
  simp [hostPresent, h]

theorem hostChange_of_inProgress {s : State} (h : s.activity = .inProgress) (c : Descriptor) (a : List Lane) :
    hostChange c a s = .fault .requestChanged := by
  simp [hostChange, h]

/-! ### The steps of a loop and of what follows it (R215, R252) -/

/-- A loop visits no more elements than there are. -/
theorem visited_le_length {α : Type} (f : Work → α → Result) (as : List α) (w : Work) :
    visited f as w ≤ as.length := by
  induction as generalizing w with
  | nil => exact le_rfl
  | cons a as ih =>
    cases ha : f w a with
    | ok v =>
      have htail : visited f as v ≤ as.length := ih v
      simp only [visited, ha, List.length_cons]
      omega
    | error e => simp [visited, ha]

/-- The steps of two stages are bounded by a bound of the first, and one of the second wherever the first succeeds. -/
theorem add_stepsAfter_le {m n k : Nat} {r : Result} {next : Work → Nat} (hm : m ≤ n)
    (hnext : ∀ v, r = .ok v → next v ≤ k) : m + stepsAfter r next ≤ n + k := by
  cases r with
  | ok v => exact Nat.add_le_add hm (hnext v rfl)
  | error e => exact Nat.add_le_add hm (Nat.zero_le k)

/-! ### The steps of each stage (R252) -/

theorem dec16Steps_le (us : List CodeUnit) (w : Work) : dec16Steps us w ≤ us.length + 1 :=
  add_stepsAfter_le (visited_le_length _ us _) fun _ _ => le_rfl

theorem enc16Steps_le (cps : List CodePoint) (w : Work) : enc16Steps cps w ≤ cps.length :=
  visited_le_length _ cps _

theorem dec8Steps_le (m : FourByteMin) (bs : List Byte) (w : Work) : dec8Steps m bs w ≤ bs.length + 1 :=
  add_stepsAfter_le (visited_le_length _ bs _) fun _ _ => le_rfl

theorem enc8Steps_le (cps : List CodePoint) (w : Work) : enc8Steps cps w ≤ cps.length :=
  visited_le_length _ cps _

theorem ksxSteps_le (k : KeyTable) (o : Nat) (bs : List Byte) (w : Work) : ksxSteps k o bs w ≤ bs.length :=
  visited_le_length _ bs _

theorem validateSteps_le (t : List CodeUnit) (w : Work) : validateSteps t w ≤ t.length := by
  unfold validateSteps
  split_ifs
  · exact Nat.zero_le _
  · exact Nat.zero_le _
  · exact visited_le_length _ t _

theorem parseSteps_le (t : List CodeUnit) (w : Work) : parseSteps t w ≤ (t.length - 2) / 2 := by
  rw [← List.length_drop, ← hexPairs_length]
  exact visited_le_length _ _ w

theorem formatSteps_le (c : List Byte) (w : Work) : formatSteps c w ≤ c.length :=
  visited_le_length _ c w

/-! ### The lengths a stage passes on -/

/-- PARSE leaves one hash byte for each pair of hash digits (R177). -/
theorem parse_raw_length {t : List CodeUnit} {w w' : Work} (h : parse t w = .ok w') :
    w'.raw.length = (t.length - 2) / 2 := by
  rw [parse_eq] at h
  simp [← Except.ok.inj h, hexPairs_length]

theorem ksx_out_length {k : KeyTable} {o : Nat} {bs : List Byte} {w w' : Work} (h : ksx k o bs w = .ok w') :
    w'.out.length = bs.length := by
  rw [ksx_out h, List.length_map, keystreamXor_length]

/-- ENC8 on what DEC16 wrote has at most three bytes for each unit: a code point of four bytes took two units. -/
theorem enc8_out_length_le_of_dec16 {us : List CodeUnit} {w w' v v' : Work} (hdec16 : dec16 us w = .ok w')
    (henc8 : enc8 w'.out v = .ok v') : v'.out.length ≤ 3 * us.length := by
  obtain ⟨cps, hunits, rfl, hout⟩ := unitForms_of_dec16 hdec16
  rw [hout] at henc8
  have hrange : ∀ c ∈ cps, c < 0x10FFFF := by
    intro c hc
    obtain ⟨hle, -⟩ := hunits c hc
    have hlane := inRange_of_scan_enc8 henc8 (cpLane c) (List.mem_map_of_mem hc)
    rwa [cpLane_toNat (by omega)] at hlane
  rw [enc8_inRange hrange] at henc8
  have hbytes : v'.out.length = (utf8Forms cps).length := by
    simp [← Except.ok.inj henc8, byteLanes]
  exact hbytes ▸ utf8Forms_length_le hrange

/-! ### The steps of the type-7 operations (R252) -/

/-- The T7DEC row: after VALIDATE every stage has an element for each pair of hash digits at most, as DEC8 writes no
more code points than it reads bytes. -/
theorem t7decSteps_le (p : Params) (t : List CodeUnit) (w : Work) :
    t7decSteps p t w ≤ stepBound .t7dec t.length := by
  have hstages : t7decSteps p t w ≤
      t.length + ((t.length - 2) / 2 + ((t.length - 2) / 2 + ((t.length - 2) / 2 + 1 + (t.length - 2) / 2))) := by
    refine add_stepsAfter_le (validateSteps_le t _) fun v _ => ?_
    refine add_stepsAfter_le (parseSteps_le t v) fun x hparse => ?_
    have hraw : x.raw.length = (t.length - 2) / 2 := parse_raw_length hparse
    refine add_stepsAfter_le (hraw ▸ ksxSteps_le _ _ _ x) fun y hksx => ?_
    have hks : (y.out.map laneByte).length = (t.length - 2) / 2 := by
      rw [List.length_map, ksx_out_length hksx, hraw]
    refine add_stepsAfter_le (hks ▸ dec8Steps_le _ _ y) fun z hdec8 => ?_
    exact (enc16Steps_le z.out z).trans (hks ▸ dec8_out_length_le hdec8)
  exact hstages.trans_eq (by simp only [stepBound]; omega)

/-- The T7ENC row: DEC16 writes a code point for each unit at most, ENC8 three bytes for each unit at most
(`enc8_out_length_le_of_dec16`), and KSX as many as it reads. -/
theorem t7encSteps_le (k : KeyTable) (o : Nat) (p : List CodeUnit) (w : Work) :
    t7encSteps k o p w ≤ stepBound (.t7enc o) p.length := by
  have hstages : t7encSteps k o p w ≤ 1 + (p.length + 1 + (p.length + (3 * p.length + 3 * p.length))) := by
    refine add_stepsAfter_le le_rfl fun v _ => ?_
    refine add_stepsAfter_le (dec16Steps_le p v) fun x hdec16 => ?_
    refine add_stepsAfter_le ((enc8Steps_le x.out x).trans (dec16_out_length_le hdec16)) fun y henc8 => ?_
    have hraw : (y.out.map laneByte).length ≤ 3 * p.length := by
      rw [List.length_map]
      exact enc8_out_length_le_of_dec16 hdec16 henc8
    refine add_stepsAfter_le ((ksxSteps_le k o _ y).trans hraw) fun z hksx => ?_
    have hks : (z.out.map laneByte).length ≤ 3 * p.length := by
      rw [List.length_map, ksx_out_length hksx]
      exact hraw
    exact (formatSteps_le _ z).trans hks
  exact hstages.trans_eq (by simp only [stepBound]; omega)

/-! ### The statements -/

/-- Settles O20, row by row of R252's table. -/
theorem elementStepsAreBounded : Obligations.ElementStepsAreBounded := by
  intro i s
  have hunits : s.units.length = s.input.length := units_length s
  have hbytes : s.bytes.length = s.input.length := bytes_length s
  cases i with
  | dec16 => exact hunits ▸ dec16Steps_le s.units s.work
  | enc16 => exact (enc16Steps_le s.input s.work).trans (Nat.le_succ _)
  | dec8 => exact hbytes ▸ dec8Steps_le s.params.fourByteMin s.bytes s.work
  | enc8 => exact (enc8Steps_le s.input s.work).trans (Nat.le_succ _)
  | t7dec => exact hunits ▸ t7decSteps_le s.params s.units s.work
  | t7enc o => exact hunits ▸ t7encSteps_le s.params.keyTable o s.units s.work
  | ksx o => exact hbytes ▸ (ksxSteps_le s.params.keyTable o s.bytes s.work).trans (Nat.le_succ _)

/-- Settles O18. In a busy block both acts of the host fault and there is nothing to read; a request presented to the
idle block is in progress, so that the next step answers it (`step_answers`). -/
theorem hostIsStuckWhileRequestInProgress : Obligations.HostIsStuckWhileRequestInProgress := by
  refine fun s c a => ⟨fun hbusy => ?busy, fun hidle => ?idle⟩
  case busy =>
    exact ⟨hostPresent_of_inProgress hbusy c a, hostChange_of_inProgress hbusy c a, hostRead_eq_none.2 (.inl hbusy)⟩
  case idle =>
    have hpresent := hostPresent_of_idle hidle c a
    obtain ⟨r, hstep⟩ := step_answers (activity_of_hostPresent hpresent)
    exact ⟨r, hpresent, hstep, hostRead_answered _ r⟩

/-- Settles O9: the port's action in an idle block is to wait. -/
theorem idleBlockWaits : Obligations.IdleBlockWaits :=
  fun _ h => step_of_idle h

/-- Settles O17: the fields a reset writes, and the idle block it leaves, to which the host can present. -/
theorem resetLeavesTheBlockIdle : Obligations.ResetLeavesTheBlockIdle :=
  ⟨State.reset_activity, rfl, fun s => ⟨hostReset_activity s, hostReset_params s, hostReset_resp s, hostReset_work s,
    hostRead_hostReset s, hostPresent_of_idle (hostReset_activity s)⟩⟩

end Sys2Proof.Machine
